-- ==== Sys2Proof/Word.lean ====
section
/-! DEFINITION. The plain value types of CRCCORE: 64-bit registers, bytes and context numbers (00_scope.md R5, R6). -/

namespace Sys2Proof

/-- The value of a host-visible register, of REG and of LEN: XLEN = 64 bits, unsigned (R5, R6). -/
abbrev Word := BitVec 64

/-- A data byte, and the 8-bit immediate IMM8 (R80). -/
abbrev Byte := BitVec 8

/-- A context number as the D and S fields of a command word hold it, 0 to 3 (R81). Which of the
four exist is NCTX's to say. -/
abbrev CtxIdx := Fin 4

end Sys2Proof
end

