-- ==== Sys2Proof/Config.lean ====
section
/-! DEFINITION. The two parameters that a model of CRCCORE takes as arguments, NCTX and CRC_BASE (00_scope.md R5). -/

namespace Sys2Proof

/-- What the implementation and its platform fix (R5: "A model takes NCTX (1..4) and CRC_BASE as arguments").
State carries a `Config` that no step changes, so a statement about every state is one about every
parameter value. -/
structure Config where
  /-- NCTX, the number of contexts (R5, D2). -/
  nctx : Nat
  /-- CRC_BASE, the bus address of the register window (R50, D3: OPEN). -/
  crcBase : Nat
  deriving DecidableEq, Repr

/-- The legal parameters: 1 to 4 contexts (R5), a base that is a multiple of 64 (R50). -/
abbrev Config.Legal (c : Config) : Prop :=
  1 ≤ c.nctx ∧ c.nctx ≤ 4 ∧ c.crcBase % 64 = 0

/-- The spec's own instance, NCTX = 2 (R5). Its CRC_BASE is the platform's to choose; 0 stands here.
DESIGN CHOICE, log 2. -/
def Config.revision1 : Config := { nctx := 2, crcBase := 0 }

end Sys2Proof
end

