-- ==== Sys2Proof/Syntax.lean ====
section
/-! DEFINITION. The command set: one constructor of `Instr` per row of the opcode map (30_encoding.md R82). -/

namespace Sys2Proof

/-- The field that QUERY reads, selectors 0 to 6 in this order (40_descriptor.md R118). -/
inductive Selector where
  | width | poly | init | xorOut | flags | reg | len
  deriving DecidableEq, Repr

/-- The fifteen commands (R82). `d` is the destination or only context, `s` the source context. Wide
operands are not part of a command: they come from ARG0 to ARG2 (R81). -/
inductive Instr where
  /-- 0x00, R190. -/
  | nop
  /-- 0x01, R106: IMM8 is the raw width. -/
  | config (d : CtxIdx) (width : Byte) (ri ro : Bool)
  /-- 0x02, R107. -/
  | start (d : CtxIdx)
  /-- 0x03, R109. -/
  | resume (d : CtxIdx)
  /-- 0x04, R141: IMM8 is the data byte. -/
  | updb (d : CtxIdx) (c : Byte)
  /-- 0x05, R142: IMM8 is the count, 0 to 8. -/
  | updd (d : CtxIdx) (n : Fin 9)
  /-- 0x06, R147. -/
  | finish (d : CtxIdx)
  /-- 0x07, R170. -/
  | combine (d s : CtxIdx)
  /-- 0x08, R172. -/
  | combv (d : CtxIdx)
  /-- 0x09, R174. -/
  | combf (d : CtxIdx)
  /-- 0x0A, R166. -/
  | shift (d : CtxIdx)
  /-- 0x0B, R114. -/
  | compat (d s : CtxIdx)
  /-- 0x0C, R116: IMM8 is the table index. -/
  | tblrd (d : CtxIdx) (k : Byte)
  /-- 0x0D, R118: IMM8 is the selector. -/
  | query (d : CtxIdx) (q : Selector)
  /-- 0x0E, R192. -/
  | srst
  deriving DecidableEq, Repr

end Sys2Proof
end

