-- ==== Sys2Proof/WellFormed.lean ====
section
/-! DEFINITION. Which terms of `Instr` are commands of a device with NCTX contexts: R82's "ctx" means
0 ≤ value < NCTX. The ranges of UPDD's count and QUERY's selector are in their types. -/

namespace Sys2Proof

/-- Every context number the command uses exists (R82, R83). -/
def Instr.wf (nctx : Nat) : Instr → Bool
  | .nop => true
  | .config d _ _ _ => d.val < nctx
  | .start d => d.val < nctx
  | .resume d => d.val < nctx
  | .updb d _ => d.val < nctx
  | .updd d _ => d.val < nctx
  | .finish d => d.val < nctx
  | .combine d s => d.val < nctx && s.val < nctx
  | .combv d => d.val < nctx
  | .combf d => d.val < nctx
  | .shift d => d.val < nctx
  | .compat d s => d.val < nctx && s.val < nctx
  | .tblrd d _ => d.val < nctx
  | .query d _ => d.val < nctx
  | .srst => true

end Sys2Proof
end

