-- ==== Sys2Proof/Decode.lean ====
section
/-! DEFINITION. The decoder of a 64-bit value written to CMD, total and rejecting by name (30_encoding.md R80 to R83),
and after it the encoder (R86), both written from the opcode map of R82. -/

namespace Sys2Proof

/-! ### The fields of a command word (R80) -/

/-- ZHI, bits 63:32. -/
def fieldZhi (v : Word) : BitVec 32 := v.extractLsb' 32 32
/-- RSV1, bits 31:24. -/
def fieldRsv1 (v : Word) : Byte := v.extractLsb' 24 8
/-- IMM8, bits 23:16. -/
def fieldImm (v : Word) : Byte := v.extractLsb' 16 8
/-- RSV0, bits 15:14. -/
def fieldRsv0 (v : Word) : BitVec 2 := v.extractLsb' 14 2
/-- RO, bit 13. -/
def fieldRo (v : Word) : Bool := v.getLsbD 13
/-- RI, bit 12. -/
def fieldRi (v : Word) : Bool := v.getLsbD 12
/-- S, bits 11:10. -/
def fieldS (v : Word) : CtxIdx := (v.extractLsb' 10 2).toFin
/-- D, bits 9:8. -/
def fieldD (v : Word) : CtxIdx := (v.extractLsb' 8 2).toFin
/-- OP, bits 7:0. -/
def fieldOp (v : Word) : Byte := v.extractLsb' 0 8

/-! ### The opcode map (R82) -/

/-- The fifteen opcodes that R82 gives a meaning. -/
inductive Opcode where
  | nop | config | start | resume | updb | updd | finish | combine | combv | combf | shift | compat
  | tblrd | query | srst
  deriving DecidableEq, Repr

/-- The OP column of R82. -/
def Opcode.code : Opcode → Byte
  | .nop => 0x00 | .config => 0x01 | .start => 0x02 | .resume => 0x03 | .updb => 0x04
  | .updd => 0x05 | .finish => 0x06 | .combine => 0x07 | .combv => 0x08 | .combf => 0x09
  | .shift => 0x0A | .compat => 0x0B | .tblrd => 0x0C | .query => 0x0D | .srst => 0x0E

/-- The opcode of an OP byte; 0x0F to 0xFF are reserved (R82, R83). -/
def Opcode.ofByte (b : Byte) : Option Opcode :=
  match b.toNat with
  | 0 => some .nop | 1 => some .config | 2 => some .start | 3 => some .resume | 4 => some .updb
  | 5 => some .updd | 6 => some .finish | 7 => some .combine | 8 => some .combv | 9 => some .combf
  | 10 => some .shift | 11 => some .compat | 12 => some .tblrd | 13 => some .query | 14 => some .srst
  | _ => none

/-- Which fields an opcode uses; R82 marks every other field "0". -/
structure FieldUse where
  d : Bool
  s : Bool
  flags : Bool
  imm : Bool
  deriving DecidableEq, Repr

/-- The D, S, RI/RO and IMM8 columns of R82. -/
def Opcode.uses : Opcode → FieldUse
  | .nop => ⟨false, false, false, false⟩
  | .config => ⟨true, false, true, true⟩
  | .start => ⟨true, false, false, false⟩
  | .resume => ⟨true, false, false, false⟩
  | .updb => ⟨true, false, false, true⟩
  | .updd => ⟨true, false, false, true⟩
  | .finish => ⟨true, false, false, false⟩
  | .combine => ⟨true, true, false, false⟩
  | .combv => ⟨true, false, false, false⟩
  | .combf => ⟨true, false, false, false⟩
  | .shift => ⟨true, false, false, false⟩
  | .compat => ⟨true, true, false, false⟩
  | .tblrd => ⟨true, false, false, true⟩
  | .query => ⟨true, false, false, true⟩
  | .srst => ⟨false, false, false, false⟩

/-- The selector number of QUERY (R118). -/
def Selector.code : Selector → Byte
  | .width => 0 | .poly => 1 | .init => 2 | .xorOut => 3 | .flags => 4 | .reg => 5 | .len => 6

/-- The selector of an IMM8 value; above 6 there is none (R83). -/
def Selector.ofByte (b : Byte) : Option Selector :=
  match b.toNat with
  | 0 => some .width | 1 => some .poly | 2 => some .init | 3 => some .xorOut | 4 => some .flags
  | 5 => some .reg | 6 => some .len
  | _ => none

/-! ### Decoding (R83) -/

/-- Why a value decodes to no command, in the order in which R83 checks. Each is IllegalCommand to the
host: safe, for it is the device's own answer and not a stop. -/
inductive DecodeError where
  /-- Bits 63:32 are not zero. -/
  | zhi
  /-- Bits 31:24 are not zero. -/
  | rsv1
  /-- Bits 15:14 are not zero. -/
  | rsv0
  /-- OP is 0x0F or more. -/
  | opcode
  /-- A field that the opcode does not use is not zero. -/
  | unusedField
  /-- D names a context that does not exist. -/
  | contextD
  /-- S names a context that does not exist. -/
  | contextS
  /-- UPDD with IMM8 above 8. -/
  | count
  /-- QUERY with IMM8 above 6. -/
  | selector
  deriving DecidableEq, Repr

/-- R83's loop over the fields that the row of the opcode marks "0": none of them may be nonzero. -/
def unusedFieldSet (u : FieldUse) (v : Word) : Bool :=
  (!u.d && fieldD v != 0) || (!u.s && fieldS v != 0) ||
    (!u.flags && (fieldRi v || fieldRo v)) || (!u.imm && fieldImm v != 0)

/-- R83's last two checks, and the command with its fields filled in. -/
def buildInstr (op : Opcode) (v : Word) : Except DecodeError Instr :=
  match op with
  | .nop => .ok .nop
  | .config => .ok (.config (fieldD v) (fieldImm v) (fieldRi v) (fieldRo v))
  | .start => .ok (.start (fieldD v))
  | .resume => .ok (.resume (fieldD v))
  | .updb => .ok (.updb (fieldD v) (fieldImm v))
  | .updd =>
    if h : (fieldImm v).toNat < 9 then .ok (.updd (fieldD v) ⟨(fieldImm v).toNat, h⟩)
    else .error .count
  | .finish => .ok (.finish (fieldD v))
  | .combine => .ok (.combine (fieldD v) (fieldS v))
  | .combv => .ok (.combv (fieldD v))
  | .combf => .ok (.combf (fieldD v))
  | .shift => .ok (.shift (fieldD v))
  | .compat => .ok (.compat (fieldD v) (fieldS v))
  | .tblrd => .ok (.tblrd (fieldD v) (fieldImm v))
  | .query =>
    match Selector.ofByte (fieldImm v) with
    | some q => .ok (.query (fieldD v) q)
    | none => .error .selector
  | .srst => .ok .srst

/-- `Decode` of R83, for a device with `nctx` contexts, on every 64-bit value. -/
def decode (nctx : Nat) (v : Word) : Except DecodeError Instr :=
  if fieldZhi v ≠ 0 then .error .zhi
  else if fieldRsv1 v ≠ 0 then .error .rsv1
  else if fieldRsv0 v ≠ 0 then .error .rsv0
  else
    match Opcode.ofByte (fieldOp v) with
    | none => .error .opcode
    | some op =>
      if unusedFieldSet op.uses v then .error .unusedField
      else if op.uses.d && nctx ≤ (fieldD v).val then .error .contextD
      else if op.uses.s && nctx ≤ (fieldS v).val then .error .contextS
      else buildInstr op v

/-! ### Encoding (R86) -/

/-- The command word with its fields filled in:
`(imm << 16) | (ro << 13) | (ri << 12) | (s << 10) | (d << 8) | op` (R86). -/
def commandWord (op : Byte) (d s : CtxIdx) (ri ro : Bool) (imm : Byte) : Word :=
  (imm.setWidth 64 <<< 16) ||| ((BitVec.ofBool ro).setWidth 64 <<< 13) |||
    ((BitVec.ofBool ri).setWidth 64 <<< 12) ||| (BitVec.ofNat 64 s.val <<< 10) |||
    (BitVec.ofNat 64 d.val <<< 8) ||| op.setWidth 64

/-- The encoding of a command: R86 with the fields that R82 marks "0" zero. -/
def encode : Instr → Word
  | .nop => commandWord Opcode.nop.code 0 0 false false 0
  | .config d w ri ro => commandWord Opcode.config.code d 0 ri ro w
  | .start d => commandWord Opcode.start.code d 0 false false 0
  | .resume d => commandWord Opcode.resume.code d 0 false false 0
  | .updb d c => commandWord Opcode.updb.code d 0 false false c
  | .updd d n => commandWord Opcode.updd.code d 0 false false (BitVec.ofNat 8 n.val)
  | .finish d => commandWord Opcode.finish.code d 0 false false 0
  | .combine d s => commandWord Opcode.combine.code d s false false 0
  | .combv d => commandWord Opcode.combv.code d 0 false false 0
  | .combf d => commandWord Opcode.combf.code d 0 false false 0
  | .shift d => commandWord Opcode.shift.code d 0 false false 0
  | .compat d s => commandWord Opcode.compat.code d s false false 0
  | .tblrd d k => commandWord Opcode.tblrd.code d 0 false false k
  | .query d q => commandWord Opcode.query.code d 0 false false q.code
  | .srst => commandWord Opcode.srst.code 0 0 false false 0

/-! ### The opcode table's words -/

/-- The 64-bit CMD datum whose bit i is bit i of an opcode-table word, the bits from `nbits` up zero. A
command is one CMD write and has no further words (R80). -/
def tableWord (nbits w : Nat) : Word := BitVec.ofNat 64 (w % 2 ^ nbits)

/-- What the decoder of the spec's instance (NCTX = 2) reads from an opcode-table word. -/
def decodeTableWord (nbits w : Nat) : Option Instr :=
  match decode Config.revision1.nctx (tableWord nbits w) with
  | .ok i => some i
  | .error _ => none

end Sys2Proof
end

