-- ==== Sys2Proof/Machine/State.lean ====
section
/-! DEFINITION. The state of CRCCORE (10_state.md R20 to R35) as plain data, the reasons a step can stop, and the state
right after reset (70_reset_and_hazards.md R230). -/

namespace Sys2Proof.Machine

/-- DESC, a validated CRC descriptor (R29, R30). Polynomial, initial value and XOR mask are in normal
orientation (R12). The invariants of R30's rows are `Desc.Valid` (Safety.lean). -/
structure Desc where
  /-- W, the width of the CRC register, 1 to 64. -/
  width : Nat
  /-- P, without its leading x^W. -/
  poly : Word
  /-- INIT. -/
  init : Word
  /-- RI, reflectIn. -/
  refIn : Bool
  /-- RO, reflectOut. -/
  refOut : Bool
  /-- XO, xorOut. -/
  xorOut : Word
  deriving DecidableEq, Repr

/-- TABLE, 256 entries (R31). -/
abbrev Table := Vector Word 256

/-- A context with its STATE and with exactly the fields that R28 says it holds in that state. What R34
calls unspecified is not there, so no value was chosen for it. DEDUCED, log 3. -/
inductive Context where
  /-- UNCONF: no descriptor is held. -/
  | unconf
  /-- CONF: a valid descriptor and its table. -/
  | conf (desc : Desc) (table : Table)
  /-- ACTIVE: a descriptor, its table and an accumulator, REG (R32) and LEN (R33). -/
  | active (desc : Desc) (table : Table) (reg len : Word)
  deriving DecidableEq, Repr

/-- The three values of a context's STATE (R28). -/
inductive Phase where
  | unconf | conf | active
  deriving DecidableEq, Repr

/-- The completion codes of STATUS.ERR (60_exceptions.md R200). Codes 5 to 15 are never produced. -/
inductive ErrCode where
  | ok | invalidConfig | typeMismatch | unsupportedOperation | illegalCommand
  deriving DecidableEq, Repr

/-- What a bus access does. -/
inductive AccessOp where
  | read
  | write (v : Word)
  deriving DecidableEq, Repr

/-- One bus access as it arrives at the device: who asks, the bus address, the size in bytes and the
operation (20_memory.md R51, R52, R63). The device does not look at `master` (R209): it only tells the
bus where a read's datum goes. -/
structure Access where
  master : Nat
  addr : Nat
  bytes : Nat
  op : AccessOp
  deriving DecidableEq, Repr

/-- What can happen at the device's pins: a bus access, or a change of the reset input (R230). -/
inductive BusEvent where
  | access (a : Access)
  | assertReset
  | releaseReset
  deriving DecidableEq, Repr

/-- The datum that a read answered, and the master that asked. -/
structure Reply where
  master : Nat
  data : Word
  deriving DecidableEq, Repr

/-- The state. CMD, ID and offset 0x38 hold no state (R21, R22, R27), and the CS fields of STATUS are
views of the contexts (R25). -/
structure State where
  /-- The parameters, which no step changes (R5). -/
  cfg : Config
  /-- ARG0, ARG1, ARG2 (R23). -/
  arg0 : Word
  arg1 : Word
  arg2 : Word
  /-- RES (R24). -/
  res : Word
  /-- STATUS bits 3:0 (R25). -/
  err : ErrCode
  /-- STATUS bits 11:8, the sticky bits SE_INVCFG, SE_TYPEMM, SE_UNSUP, SE_ILLCMD (R25). -/
  sticky : BitVec 4
  /-- The contexts; slots NCTX and above do not exist and stay UNCONF. DESIGN CHOICE, log 12. -/
  ctxs : Vector Context 4
  /-- The level of the reset input (R230). The model's own field, log 7. -/
  resetAsserted : Bool
  /-- Bus events not yet performed, oldest first (R61). The model's own field, log 1. -/
  pending : List BusEvent
  /-- What the reads so far answered, newest first (R57). The model's own field, log 4. -/
  replies : List Reply
  deriving DecidableEq, Repr

/-- Why the device does not perform a bus event. The spec's own errors are no faults: they are next states
with a completion code (R203). -/
inductive Fault where
  /-- An access to the window that is not 64 bits wide or not at a multiple of 8 (R52). Raised by
  `performAccess`. Safe: the device stays as it was, and the model stops. -/
  | busError
  /-- An access that does not touch the window, the device's whole address space (R50, R59). Raised by
  `performAccess`. Safe: it is none of the device's, and the model stops. -/
  | outsideWindow
  /-- An access while reset is asserted, which R230 does not admit. Raised by `performAccess`. Safe. -/
  | accessDuringReset
  deriving DecidableEq, Repr

/-- Why there is no meaning. -/
inductive Refusal where
  /-- A command whose meaning is not written, raised by `exec` only. No arm of this model uses it. Safe. -/
  | notModelled (mnemonic : String)
  deriving DecidableEq, Repr

/-- A step's outcome. -/
abbrev Result := Host.Outcome State Fault Refusal

/-- The state right after reset of a device with parameters `cfg` (R230), its reset input released and
no bus event pending (log 1, log 4, log 7). -/
def State.resetOf (cfg : Config) : State :=
  { cfg := cfg
    arg0 := 0
    arg1 := 0
    arg2 := 0
    res := 0
    err := .ok
    sticky := 0
    ctxs := Vector.replicate 4 .unconf
    resetAsserted := false
    pending := []
    replies := [] }

/-- The spec's instance right after reset (R5, R230). -/
def State.reset : State := State.resetOf Config.revision1

end Sys2Proof.Machine
end

