-- ==== Sys2Proof/Machine/Flags.lean ====
section
/-! DEFINITION. STATUS (10_state.md R25, R26): the completion codes, the sticky bits, the views of the contexts' states, the
64-bit value a read returns and what a write clears. -/

namespace Sys2Proof.Machine

/-- The code of STATUS.ERR (60_exceptions.md R200). -/
def ErrCode.code : ErrCode → BitVec 4
  | .ok => 0 | .invalidConfig => 1 | .typeMismatch => 2 | .unsupportedOperation => 3
  | .illegalCommand => 4

/-- The sticky bit that error e sets, STATUS[7 + e], as a bit of STATUS[11:8] (R203); success sets none. -/
def ErrCode.stickyBit : ErrCode → BitVec 4
  | .ok => 0 | .invalidConfig => 1 | .typeMismatch => 2 | .unsupportedOperation => 4
  | .illegalCommand => 8

/-- STATE of a context (R28). -/
def Context.phase : Context → Phase
  | .unconf => .unconf
  | .conf _ _ => .conf
  | .active _ _ _ _ => .active

/-- UNCONF = 0, CONF = 1, ACTIVE = 2 (R25). -/
def Phase.code : Phase → BitVec 2
  | .unconf => 0 | .conf => 1 | .active => 2

/-- CS_c in its place in STATUS, 0 for c ≥ NCTX (R25). -/
def State.csField (s : State) (c : CtxIdx) : Word :=
  if c.val < s.cfg.nctx then (s.ctxs[c].phase.code).setWidth 64 <<< (16 + 2 * c.val) else 0

/-- The value that a read of STATUS returns (R25). -/
def State.statusWord (s : State) : Word :=
  s.err.code.setWidth 64 ||| (s.sticky.setWidth 64 <<< 8) |||
    s.csField 0 ||| s.csField 1 ||| s.csField 2 ||| s.csField 3

/-- `BusWrite(0x28, v)`: `STATUS[11:8] <- STATUS[11:8] & ~v[11:8]` and nothing else (R26). -/
def State.clearSticky (s : State) (v : Word) : State :=
  { s with sticky := s.sticky &&& ~~~(v.extractLsb' 8 4) }

end Sys2Proof.Machine
end

