-- ==== Sys2Proof/Machine/Gf2.lean ====
section
/-! DEFINITION. The arithmetic of the source's four components, as functions of values: masks and bit reversal (00_scope.md
R7, R8), bit-serial division and the table (40_descriptor.md R100 to R104), the table-driven update and finalization
(41_accumulate.md R140 to R146), and the combine engine (42_combine.md R160 to R164). -/

namespace Sys2Proof.Machine

/-- `mask_W = 2^W - 1` (R7), as a 64-bit word. -/
def maskOf (w : Nat) : Word := ((1 : Word) <<< w) - 1

/-- `v & mask_W`. -/
def truncTo (w : Nat) (v : Word) : Word := v &&& maskOf w

/-- `rev_N(v)` (R8): bit 0 goes to bit N-1 and the rest is reversed below it. -/
def rev : Nat → Word → Word
  | 0, _ => 0
  | n + 1, v => rev n (v >>> 1) ||| ((v &&& 1) <<< n)

/-! ### Bit-serial division, the normative definition -/

/-- `StepN` (R101): one input bit in normal orientation. -/
def stepN (w : Nat) (p r : Word) (b : Bool) : Word :=
  let shifted := truncTo w (r <<< 1)
  if r.getLsbD (w - 1) ^^ b then shifted ^^^ p else shifted

/-- `StepR` (R102): one input bit in reflected orientation, `rp` the reflected polynomial. -/
def stepR (rp r : Word) (b : Bool) : Word :=
  let shifted := r >>> 1
  if r.getLsbD 0 ^^ b then shifted ^^^ rp else shifted

/-- `Step` of R160: StepR when RI = 1, StepN when RI = 0. -/
def stepBit (w : Nat) (p : Word) (ri : Bool) (r : Word) (b : Bool) : Word :=
  if ri then stepR (rev w p) r b else stepN w p r b

/-- `ByteN` (R101): the bits of the byte from 7 down to 0. -/
def byteN (w : Nat) (p r : Word) (c : Byte) : Word :=
  [7, 6, 5, 4, 3, 2, 1, 0].foldl (fun r i => stepN w p r (c.getLsbD i)) r

/-- `ByteR` (R102): the bits of the byte from 0 up to 7. -/
def byteR (rp r : Word) (c : Byte) : Word :=
  [0, 1, 2, 3, 4, 5, 6, 7].foldl (fun r i => stepR rp r (c.getLsbD i)) r

/-- `ByteStep` (R103), the normative meaning of consuming one byte. -/
def byteStep (w : Nat) (p : Word) (ri : Bool) (r : Word) (c : Byte) : Word :=
  if ri then byteR (rev w p) r c else byteN w p r c

/-- `TableOf` (R104). -/
def tableOf (w : Nat) (p : Word) (ri : Bool) : Table :=
  Vector.ofFn fun c => byteStep w p ri 0 (BitVec.ofFin c)

/-- `TABLE[c]`. -/
def Table.entry (t : Table) (c : Byte) : Word := t[c.toFin]

/-! ### The descriptor (R30, R100) -/

/-- `Validate` (R100), from the raw parameters: none is InvalidConfig. -/
def validate (width : Byte) (p i : Word) (ri ro : Bool) (x : Word) : Option Desc :=
  let w := width.toNat
  if w < 1 ∨ 64 < w then none
  else if (truncTo w p).getLsbD 0 = false then none
  else some { width := w, poly := truncTo w p, init := truncTo w i, refIn := ri, refOut := ro,
              xorOut := truncTo w x }

/-- NINIT (R30): the initial register in native orientation. -/
def Desc.ninit (d : Desc) : Word := if d.refIn then rev d.width d.init else d.init

/-- The table of a descriptor, a function of (W, P, RI) alone (R31, R104). -/
def Desc.tableOf (d : Desc) : Table := Machine.tableOf d.width d.poly d.refIn

/-- ByteStep with the descriptor's W, P and RI (R103). -/
def Desc.byteStep (d : Desc) (r : Word) (c : Byte) : Word := Machine.byteStep d.width d.poly d.refIn r c

/-! ### The accumulator (R140 to R146) -/

/-- `Update1` (R140), the table-driven update with the context's TABLE. -/
def update1 (d : Desc) (t : Table) (r : Word) (c : Byte) : Word :=
  if d.refIn then t.entry (r.setWidth 8 ^^^ c) ^^^ (r >>> 8)
  else if 8 ≤ d.width then
    t.entry ((r >>> (d.width - 8)).setWidth 8 ^^^ c) ^^^ truncTo d.width (r <<< 8)
  else t.entry ((r <<< (8 - d.width)).setWidth 8 ^^^ c)

/-- `Run` (R143): Update1 for each byte in order. -/
def runBytes (d : Desc) (t : Table) (r : Word) (bytes : List Byte) : Word :=
  bytes.foldl (update1 d t) r

/-- `Finalize` (R145; conflict C1: reversed when RI and RO differ). -/
def finalize (d : Desc) (r : Word) : Word :=
  (if d.refIn ^^ d.refOut then rev d.width r else r) ^^^ d.xorOut

/-- `Unfinalize` (R146). -/
def unfinalize (d : Desc) (c : Word) : Word :=
  if d.refIn ^^ d.refOut then rev d.width (c ^^^ d.xorOut) else c ^^^ d.xorOut

/-! ### The combine engine (R160 to R164) -/

/-- `A·v` for a matrix held as its columns (R160): the XOR of the columns j with v[j] = 1. -/
def mulVec : List Word → Word → Word
  | [], _ => 0
  | column :: columns, v => (if v.getLsbD 0 then column else 0) ^^^ mulVec columns (v >>> 1)

/-- `A·B`: column j is `A·column_j(B)` (R160). -/
def mulMat (a b : List Word) : List Word := b.map (mulVec a)

/-- M, the zero-bit operator: column j is `Step(2^j, 0)` (R160). -/
def zeroBitMatrix (d : Desc) : List Word :=
  (List.range d.width).map fun j => stepBit d.width d.poly d.refIn ((1 : Word) <<< j) false

/-- The loop of `ZeroShift` (R162): `k` the remaining exponent, `a` the current square, `r` the register.
`fuel` bounds the passes by the bits of `k`. -/
def powerApply : (fuel : Nat) → (k : Nat) → (a : List Word) → (r : Word) → Word
  | 0, _, _, r => r
  | fuel + 1, k, a, r =>
    if k = 0 then r
    else
      powerApply fuel (k / 2) (if k / 2 = 0 then a else mulMat a a)
        (if k % 2 = 1 then mulVec a r else r)

/-- `Z(r, n) = M^(8n)·r` (R161), computed by repeated squaring (R162). The exponent 8n is exact and has at
most 67 bits. -/
def zeroShift (d : Desc) (r n : Word) : Word :=
  powerApply 67 (8 * n.toNat) (zeroBitMatrix d) r

/-- `CombineRaw` (R163; conflict C2: no trailing `^ initial`). -/
def combineRaw (d : Desc) (rA n rB : Word) : Word := zeroShift d (rA ^^^ d.ninit) n ^^^ rB

/-- `CombineFin` (R164). -/
def combineFin (d : Desc) (cA n cB : Word) : Word :=
  finalize d (combineRaw d (unfinalize d cA) n (unfinalize d cB))

end Sys2Proof.Machine
end

