-- ==== Sys2Proof/Machine/Operands.lean ====
section
/-! DEFINITION. The operand forms of the commands (30_encoding.md R81): wide operands from ARG0 to ARG2, masked to W bits
where a rule says so (10_state.md R23, D36), byte lanes of ARG0 (20_memory.md R55), and what QUERY selects (R118). -/

namespace Sys2Proof.Machine

/-- `ARG0 & mask` for the descriptor's W. -/
def State.maskedArg0 (s : State) (d : Desc) : Word := truncTo d.width s.arg0

/-- `ARG2 & mask` for the descriptor's W. -/
def State.maskedArg2 (s : State) (d : Desc) : Word := truncTo d.width s.arg2

/-- Byte lane k of a datum, bits 8k+7:8k (R54). -/
def lane (v : Word) (k : Nat) : Byte := v.extractLsb' (8 * k) 8

/-- The n bytes that UPDD consumes, lane 0 first (R55, R142). -/
def lanes (v : Word) (n : Nat) : List Byte := (List.range n).map (lane v)

/-- The `case q of` of QUERY (R118). -/
def queryValue (q : Selector) (d : Desc) (reg len : Word) : Word :=
  match q with
  | .width => BitVec.ofNat 64 d.width
  | .poly => d.poly
  | .init => d.init
  | .xorOut => d.xorOut
  | .flags => ((BitVec.ofBool d.refOut).setWidth 64 <<< 1) ||| (BitVec.ofBool d.refIn).setWidth 64
  | .reg => reg
  | .len => len

end Sys2Proof.Machine
end

