-- ==== Sys2Proof/Machine/Ops.lean ====
section
/-! DEFINITION. The shared operations over the state: reading and writing a context, how a command succeeds, how it ends with
an error (60_exceptions.md R203), the state checks of variant-level and instance-level commands (R201), the reset effect
(70_reset_and_hazards.md R230) and the reads of the register window (10_state.md R21). -/

namespace Sys2Proof.Machine

/-- `ctx[c]`. -/
def State.ctx (s : State) (c : CtxIdx) : Context := s.ctxs[c]

/-- `ctx[c] <- x`. -/
def State.setCtx (s : State) (c : CtxIdx) (x : Context) : State :=
  { s with ctxs := s.ctxs.set c.val x }

/-- `RES <- v` (R24). -/
def State.setRes (s : State) (v : Word) : State := { s with res := v }

/-- A command succeeds, its effects already in `s`: `STATUS.ERR <- 0`, and no sticky bit changes (R25). -/
def succeed (s : State) : Result := .next { s with err := .ok }

/-- `raise E` (R10, R203), the one way a command ends with an error: ERR and the sticky bit of the error,
nothing else. There is no vector, no saved register and no return from it (R204). -/
def raiseError (e : ErrCode) (s : State) : Result :=
  .next { s with err := e, sticky := s.sticky ||| e.stickyBit }

/-- A variant-level command on context c: it needs CONF or ACTIVE, else UnsupportedOperation (R201). -/
def withVariant (c : CtxIdx) (s : State) (body : Desc → Table → Result) : Result :=
  match s.ctx c with
  | .unconf => raiseError .unsupportedOperation s
  | .conf d t => body d t
  | .active d t _ _ => body d t

/-- An instance-level command on context c: it needs ACTIVE, else UnsupportedOperation (R201). -/
def withInstance (c : CtxIdx) (s : State) (body : Desc → Table → Word → Word → Result) : Result :=
  match s.ctx c with
  | .unconf => raiseError .unsupportedOperation s
  | .conf _ _ => raiseError .unsupportedOperation s
  | .active d t reg len => body d t reg len

/-- The descriptor of a context that holds one. -/
def Context.desc? : Context → Option Desc
  | .unconf => none
  | .conf d _ => some d
  | .active d _ _ _ => some d

/-- `Compatible` (R113): both hold a descriptor, and all six fields are equal (conflict C5). -/
def compatible (a b : Context) : Bool :=
  match a.desc?, b.desc? with
  | some x, some y =>
    x.width == y.width && x.poly == y.poly && x.init == y.init && x.refIn == y.refIn &&
      x.refOut == y.refOut && x.xorOut == y.xorOut
  | _, _ => false

/-- What reset, and equally SRST, does to the device (R192, R230). -/
def State.deviceReset (s : State) : State :=
  { s with
    arg0 := 0
    arg1 := 0
    arg2 := 0
    res := 0
    err := .ok
    sticky := 0
    ctxs := Vector.replicate 4 .unconf }

/-! ### The register window (R21) -/

/-- The eight registers of the window, in the order of their offsets. -/
inductive WinReg where
  | cmd | arg0 | arg1 | arg2 | res | status | id | reserved
  deriving DecidableEq, Repr

/-- The offset column of R21. -/
def WinReg.offset : WinReg → Nat
  | .cmd => 0x00 | .arg0 => 0x08 | .arg1 => 0x10 | .arg2 => 0x18
  | .res => 0x20 | .status => 0x28 | .id => 0x30 | .reserved => 0x38

/-- The register at an offset, none where no register starts (R51). -/
def WinReg.ofOffset (off : Nat) : Option WinReg :=
  match off with
  | 0x00 => some .cmd | 0x08 => some .arg0 | 0x10 => some .arg1 | 0x18 => some .arg2
  | 0x20 => some .res | 0x28 => some .status | 0x30 => some .id | 0x38 => some .reserved
  | _ => none

/-- ID (R27): "CRCC", WMAX = 64, NCTX, revision 1. -/
def State.idWord (s : State) : Word :=
  ((0x43524343 : Word) <<< 32) ||| ((0x40 : Word) <<< 24) |||
    ((BitVec.ofNat 3 s.cfg.nctx).setWidth 64 <<< 16) ||| (0x0001 : Word)

/-- `BusRead` (R21, R58): the value of a register of the window. CMD and the reserved offset read 0. -/
def State.busRead (s : State) : WinReg → Word
  | .cmd => 0
  | .arg0 => s.arg0
  | .arg1 => s.arg1
  | .arg2 => s.arg2
  | .res => s.res
  | .status => s.statusWord
  | .id => s.idWord
  | .reserved => 0

end Sys2Proof.Machine
end

