-- ==== Sys2Proof/Machine/Accumulator.lean ====
section
/-! DEFINITION. The accumulator's commands: UPDB, UPDD and FINISH (41_accumulate.md). -/

namespace Sys2Proof.Machine

/-- UPDB (R141). -/
def execUpdb (d : CtxIdx) (c : Byte) (s : State) : Result :=
  withInstance d s fun desc table reg len =>
    succeed (s.setCtx d (.active desc table (update1 desc table reg c) (len + 1)))

/-- UPDD (R142): the first n lanes of ARG0. -/
def execUpdd (d : CtxIdx) (n : Fin 9) (s : State) : Result :=
  withInstance d s fun desc table reg len =>
    succeed (s.setCtx d (.active desc table (runBytes desc table reg (lanes s.arg0 n.val))
      (len + BitVec.ofNat 64 n.val)))

/-- FINISH (R147). -/
def execFinish (d : CtxIdx) (s : State) : Result :=
  withInstance d s fun desc _ reg _ => succeed (s.setRes (finalize desc reg))

end Sys2Proof.Machine
end

