-- ==== Sys2Proof/Machine/Combine.lean ====
section
/-! DEFINITION. The combine engine's commands: SHIFT, COMBINE, COMBV and COMBF (42_combine.md). -/

namespace Sys2Proof.Machine

/-- SHIFT (R166). -/
def execShift (d : CtxIdx) (s : State) : Result :=
  withVariant d s fun desc _ => succeed (s.setRes (zeroShift desc (s.maskedArg0 desc) s.arg1))

/-- COMBINE (R170): both contexts ACTIVE, then compatible; all operands are read before any write. -/
def execCombine (d src : CtxIdx) (s : State) : Result :=
  withInstance d s fun desc table regA lenA =>
    withInstance src s fun _ _ regB lenB =>
      if compatible (s.ctx d) (s.ctx src) then
        succeed (s.setCtx d (.active desc table (combineRaw desc regA lenB regB) (lenA + lenB)))
      else raiseError .typeMismatch s

/-- COMBV (R172). -/
def execCombv (d : CtxIdx) (s : State) : Result :=
  withInstance d s fun desc table reg len =>
    succeed (s.setCtx d (.active desc table
      (combineRaw desc reg s.arg1 (unfinalize desc (s.maskedArg0 desc))) (len + s.arg1)))

/-- COMBF (R174). -/
def execCombf (d : CtxIdx) (s : State) : Result :=
  withVariant d s fun desc _ =>
    succeed (s.setRes (combineFin desc (s.maskedArg0 desc) s.arg1 (s.maskedArg2 desc)))

end Sys2Proof.Machine
end

