-- ==== Sys2Proof/Machine/Control.lean ====
section
/-! DEFINITION. The control commands NOP and SRST (43_control.md). -/

namespace Sys2Proof.Machine

/-- NOP (R190). -/
def execNop (s : State) : Result := succeed s

/-- SRST (R192): the whole of STATUS becomes 0 with the rest. -/
def execSrst (s : State) : Result := succeed s.deviceReset

end Sys2Proof.Machine
end

