-- ==== Sys2Proof/Machine/Descriptor.lean ====
section
/-! DEFINITION. The commands that create or inspect a context without feeding it data: CONFIG, START, RESUME, COMPAT, TBLRD
and QUERY (40_descriptor.md). -/

namespace Sys2Proof.Machine

/-- CONFIG (R106): the descriptor and its table are loaded whole, or nothing of the context changes. -/
def execConfig (d : CtxIdx) (width : Byte) (ri ro : Bool) (s : State) : Result :=
  match validate width s.arg0 s.arg1 ri ro s.arg2 with
  | none => raiseError .invalidConfig s
  | some desc => succeed (s.setCtx d (.conf desc desc.tableOf))

/-- START (R107). -/
def execStart (d : CtxIdx) (s : State) : Result :=
  withVariant d s fun desc table => succeed (s.setCtx d (.active desc table desc.ninit 0))

/-- RESUME (R109). -/
def execResume (d : CtxIdx) (s : State) : Result :=
  withVariant d s fun desc table =>
    succeed (s.setCtx d (.active desc table (unfinalize desc (s.maskedArg0 desc)) 0))

/-- COMPAT (R114): never raises. -/
def execCompat (d src : CtxIdx) (s : State) : Result :=
  succeed (s.setRes (if compatible (s.ctx d) (s.ctx src) then 1 else 0))

/-- TBLRD (R116). -/
def execTblrd (d : CtxIdx) (k : Byte) (s : State) : Result :=
  withVariant d s fun _ table => succeed (s.setRes (table.entry k))

/-- QUERY (R118). -/
def execQuery (d : CtxIdx) (q : Selector) (s : State) : Result :=
  withInstance d s fun desc _ reg len => succeed (s.setRes (queryValue q desc reg len))

end Sys2Proof.Machine
end

