-- ==== Sys2Proof/Machine/Dispatch.lean ====
section
/-! DEFINITION. The meaning of a decoded command: one arm per constructor of `Instr`, one call each. -/

namespace Sys2Proof.Machine

def exec (i : Instr) (s : State) : Host.Outcome State Fault Refusal :=
  match i with
  | .nop => Sys2Proof.Machine.execNop s
  | .config d width ri ro => Sys2Proof.Machine.execConfig d width ri ro s
  | .start d => Sys2Proof.Machine.execStart d s
  | .resume d => Sys2Proof.Machine.execResume d s
  | .updb d c => Sys2Proof.Machine.execUpdb d c s
  | .updd d n => Sys2Proof.Machine.execUpdd d n s
  | .finish d => Sys2Proof.Machine.execFinish d s
  | .combine d src => Sys2Proof.Machine.execCombine d src s
  | .combv d => Sys2Proof.Machine.execCombv d s
  | .combf d => Sys2Proof.Machine.execCombf d s
  | .shift d => Sys2Proof.Machine.execShift d s
  | .compat d src => Sys2Proof.Machine.execCompat d src s
  | .tblrd d k => Sys2Proof.Machine.execTblrd d k s
  | .query d q => Sys2Proof.Machine.execQuery d q s
  | .srst => Sys2Proof.Machine.execSrst s

end Sys2Proof.Machine
end

