-- ==== Sys2Proof/Machine/Bus.lean ====
section
/-! DEFINITION. One bus event (20_memory.md R50 to R63, 70_reset_and_hazards.md R230, R240): which register an access reaches,
the writes of the window, a command write, and the reset input. -/

namespace Sys2Proof.Machine

/-- A 64-bit write of `v` to CMD (R22): the command it decodes to runs whole, or IllegalCommand (R83). -/
def commandWrite (v : Word) (s : State) : Result :=
  match decode s.cfg.nctx v with
  | .ok i => exec i s
  | .error _ => raiseError .illegalCommand s

/-- `BusWrite` to a register of the window (R21, R58): RES, ID and the reserved offset ignore it. -/
def busWrite (r : WinReg) (v : Word) (s : State) : Result :=
  match r with
  | .cmd => commandWrite v s
  | .arg0 => .next { s with arg0 := v }
  | .arg1 => .next { s with arg1 := v }
  | .arg2 => .next { s with arg2 := v }
  | .res => .next s
  | .status => .next (s.clearSticky v)
  | .id => .next s
  | .reserved => .next s

/-- The register that an admitted access reaches: a 64-bit access at CRC_BASE + 8k, k = 0..7 (R51). -/
def Access.target (a : Access) (cfg : Config) : Option WinReg :=
  if a.bytes = 8 ∧ cfg.crcBase ≤ a.addr then WinReg.ofOffset (a.addr - cfg.crcBase) else none

/-- Some byte of the access lies in the window CRC_BASE to CRC_BASE + 0x3F (R50). -/
def Access.touches (a : Access) (cfg : Config) : Bool :=
  a.addr < cfg.crcBase + 0x40 && cfg.crcBase < a.addr + a.bytes

/-- One access: performed if R51 admits it, else the bus error of R52, a fault that leaves the device as
it was. A read's datum goes back to the master that asked. -/
def performAccess (a : Access) (s : State) : Result :=
  if s.resetAsserted then .fault .accessDuringReset
  else
    match a.target s.cfg with
    | some r =>
      match a.op with
      | .read => .next { s with replies := ⟨a.master, s.busRead r⟩ :: s.replies }
      | .write v => busWrite r v s
    | none => if a.touches s.cfg then .fault .busError else .fault .outsideWindow

/-- One bus event. Asserting reset resets the device (R230); releasing it lets accesses in again. -/
def performEvent (e : BusEvent) (s : State) : Result :=
  match e with
  | .access a => performAccess a s
  | .assertReset => .next { s.deviceReset with resetAsserted := true }
  | .releaseReset => .next { s with resetAsserted := false }

/-- The oldest pending event is taken off and performed (R61); with none the device waits (R231). -/
def performPending (s : State) : Result :=
  match s.pending with
  | [] => .next s
  | e :: rest => performEvent e { s with pending := rest }

/-- A write of `v` to CMD by master 0, at the address where the device's window stands. -/
def commandAccess (cfg : Config) (v : Word) : Access :=
  { master := 0, addr := cfg.crcBase + WinReg.cmd.offset, bytes := 8, op := .write v }

/-- The reset input released and a CMD write of `v` arriving before everything else that is pending. -/
def State.withCommand (s : State) (v : Word) : State :=
  { s with resetAsserted := false, pending := .access (commandAccess s.cfg v) :: s.pending }

end Sys2Proof.Machine
end

