-- ==== Sys2Proof/Machine/Step.lean ====
section
/-! DEFINITION. One step of CRCCORE: one bus event (20_memory.md R61). And how a command word is placed where the next step
takes its command from. -/

namespace Sys2Proof.Machine

/-- One step: the oldest pending bus event, whole (R61, R240). -/
def step (s : State) : Host.Outcome State Fault Refusal := performPending s

/-- `s` with an opcode-table word as the datum of a CMD write that is the next event (log 8). -/
def State.withFetchWord (s : State) (nbits w : Nat) : State := s.withCommand (tableWord nbits w)

end Sys2Proof.Machine
end

