-- ==== Sys2Proof/Machine/HostSide.lean ====
section
/-! DEFINITION. What a host program does with the device, beside the device itself: the bus statements and pseudo-instructions
of 30_encoding.md R84, R87, R88, and the two output encodings of 41_accumulate.md R148. No step depends on this file. -/

namespace Sys2Proof.Machine

/-! ### Output encodings (R148) -/

/-- `DigestBytes(W, v)`: the ceil(W/8) bytes of v, most significant first. -/
def digestBytes (w : Nat) (v : Word) : List Byte :=
  let n := (w + 7) / 8
  (List.range n).map fun j => v.extractLsb' (8 * (n - 1 - j)) 8

/-- `HexDigest(W, v)`: ceil(W/4) lowercase hexadecimal digits, zero-padded on the left. -/
def hexDigest (w : Nat) (v : Word) : List Char :=
  let n := (w + 3) / 4
  (List.range n).map fun j => Nat.digitChar (v.extractLsb' (4 * (n - 1 - j)) 4).toNat

/-! ### Bus statements (R87) -/

/-- A statement of a host program: a command, or another access to the window. -/
inductive Stmt where
  | wrCmd (v : Word)
  | wrArg0 (v : Word)
  | wrArg1 (v : Word)
  | wrArg2 (v : Word)
  | wrStatus (v : Word)
  | rd (r : WinReg)
  deriving DecidableEq, Repr

/-- The command `i` as a statement: a CMD write of its encoding. -/
def Stmt.command (i : Instr) : Stmt := .wrCmd (encode i)

/-- The window register that a statement accesses, and how. -/
def Stmt.target : Stmt → WinReg × AccessOp
  | .wrCmd v => (.cmd, .write v)
  | .wrArg0 v => (.arg0, .write v)
  | .wrArg1 v => (.arg1, .write v)
  | .wrArg2 v => (.arg2, .write v)
  | .wrStatus v => (.status, .write v)
  | .rd r => (r, .read)

/-- The bus event of a statement executed by `master`: one 64-bit access at CRC_BASE + offset. -/
def Stmt.event (cfg : Config) (master : Nat) (st : Stmt) : BusEvent :=
  .access { master := master, addr := cfg.crcBase + st.target.1.offset, bytes := 8, op := st.target.2 }

/-! ### Pseudo-instructions (R88) -/

/-- `cfg cD, W, P, init=I, ri, ro, xo=X`; a host leaves out I, X, ri and ro for 0 and false (D31). -/
def cfgStmts (d : CtxIdx) (w : Byte) (p : Word) (init : Word := 0) (ri ro : Bool := false)
    (xo : Word := 0) : List Stmt :=
  [.wrArg0 p, .wrArg1 init, .wrArg2 xo, .command (.config d w ri ro)]

/-- A group of up to 8 bytes as a datum, byte i in lane i: `sum over i<k of b(8j+i) << 8i`. -/
def packBytes : List Byte → Word
  | [] => 0
  | b :: bytes => b.setWidth 64 ||| (packBytes bytes <<< 8)

/-- The successive groups of up to 8 bytes; `fuel` bounds their number. -/
def groupsOf8 : (fuel : Nat) → List Byte → List (List Byte)
  | 0, _ => []
  | _ + 1, [] => []
  | fuel + 1, b :: bytes => (b :: bytes).take 8 :: groupsOf8 fuel ((b :: bytes).drop 8)

/-- One group of `update`: `wr ARG0, g ; updd cD, #k`. -/
def groupStmts (d : CtxIdx) (g : List Byte) : List Stmt :=
  [.wrArg0 (packBytes g), .command (.updd d (Fin.ofNat 9 g.length))]

/-- `update cD, B`; the empty B expands to nothing. -/
def updateStmts (d : CtxIdx) (bytes : List Byte) : List Stmt :=
  (groupsOf8 bytes.length bytes).flatMap (groupStmts d)

/-- `create cD`. -/
def createStmts (d : CtxIdx) : List Stmt := [.command (.start d)]

/-- `create cD, seed=B`: START and then the bytes (R88, R108). -/
def createSeededStmts (d : CtxIdx) (seed : List Byte) : List Stmt := createStmts d ++ updateStmts d seed

/-- `create cD, prior=C`. -/
def createResumedStmts (d : CtxIdx) (prior : Word) : List Stmt := [.wrArg0 prior, .command (.resume d)]

/-- `crc cD, B [, prior=C]`. `digest` and `hexdigest` are the same statements; the host then makes `digestBytes` or
`hexDigest` of the value that the last one reads. -/
def crcStmts (d : CtxIdx) (bytes : List Byte) (prior : Option Word := none) : List Stmt :=
  (match prior with
    | none => createStmts d
    | some c => createResumedStmts d c) ++
    updateStmts d bytes ++ [.command (.finish d), .rd .res]

end Sys2Proof.Machine
end

