-- ==== Sys2Proof/Safety.lean ====
section
/-! DEFINITION. The terms claims are made in: the invariants that 10_state.md gives the fields of State, and what a safe step is. -/

namespace Sys2Proof.Machine

/-- A value of W bits: `v < 2^W` (R30, R32). -/
abbrev Fits (w : Nat) (v : Word) : Prop := v.toNat < 2 ^ w

/-- The invariants of DESC's rows (R30). -/
abbrev Desc.Valid (d : Desc) : Prop :=
  1 ≤ d.width ∧ d.width ≤ 64 ∧ Fits d.width d.poly ∧ d.poly.getLsbD 0 = true ∧
    Fits d.width d.init ∧ Fits d.width d.xorOut

/-- A context's fields are as R30 to R32 say: a valid descriptor, its own table, REG below 2^W. -/
def Context.Valid : Context → Prop
  | .unconf => True
  | .conf d t => d.Valid ∧ t = d.tableOf
  | .active d t reg _ => d.Valid ∧ t = d.tableOf ∧ Fits d.width reg

/-- The device's registers and contexts are as reset leaves them (R230). -/
abbrev State.AtReset (s : State) : Prop :=
  s.arg0 = 0 ∧ s.arg1 = 0 ∧ s.arg2 = 0 ∧ s.res = 0 ∧ s.err = .ok ∧ s.sticky = 0 ∧
    s.ctxs = Vector.replicate 4 .unconf

/-- The invariant of the machine: legal parameters (R5, R50), valid contexts (R30 to R32), no context at NCTX
or above (R25), and the reset state for as long as reset is asserted (R230). -/
structure State.Inv (s : State) : Prop where
  legal : s.cfg.Legal
  valid : ∀ c, (s.ctx c).Valid
  absent : ∀ c : CtxIdx, s.cfg.nctx ≤ c.val → s.ctx c = .unconf
  held : s.resetAsserted = true → s.AtReset

end Sys2Proof.Machine

/-! ### What the rules say of a command as a whole -/

namespace Sys2Proof

open Machine

/-- The context that a command writes when it succeeds, and the STATE it leaves there (R28, R29, R32, R33). SRST,
which writes them all, is not in this list. -/
def Instr.loads : Instr → Option (CtxIdx × Phase)
  | .config d _ _ _ => some (d, .conf)
  | .start d => some (d, .active)
  | .resume d => some (d, .active)
  | .updb d _ => some (d, .active)
  | .updd d _ => some (d, .active)
  | .combine d _ => some (d, .active)
  | .combv d => some (d, .active)
  | .nop | .finish _ | .combf _ | .shift _ | .compat _ _ | .tblrd _ _ | .query _ _ | .srst => none

/-- The commands that write a result to RES (R24). SRST, which clears it, is not in this list. -/
def Instr.answers : Instr → Bool
  | .finish _ | .combf _ | .shift _ | .compat _ _ | .tblrd _ _ | .query _ _ => true
  | .nop | .config _ _ _ _ | .start _ | .resume _ | .updb _ _ | .updd _ _ | .combine _ _ | .combv _ | .srst => false

/-- When a command raises UnsupportedOperation: the table of R201. -/
def Instr.lacks (s : State) : Instr → Bool
  | .start d | .resume d | .tblrd d _ | .shift d | .combf d => (s.ctx d).phase == .unconf
  | .updb d _ | .updd d _ | .finish d | .combv d | .query d _ => (s.ctx d).phase != .active
  | .combine d src => (s.ctx d).phase != .active || (s.ctx src).phase != .active
  | .nop | .config _ _ _ _ | .compat _ _ | .srst => false

end Sys2Proof

namespace Sys2Proof.Machine

/-- A step is safe when the device performs the event: it neither faults nor refuses. -/
def Safe (s : State) : Prop := ∃ t, step s = .next t

/-- `k` steps, ending at the first that does not answer a next state. -/
def steps : Nat → State → Result
  | 0, s => .next s
  | k + 1, s =>
    match step s with
    | .next t => steps k t
    | .fault f => .fault f
    | .refused r => .refused r

end Sys2Proof.Machine
end

