-- ==== Sys2Proof/Certificates/Slice0/Obligations.lean ====
section
/-! DEFINITION. The statements about CRCCORE for the provers, from the numbered rules of spec/. Each docstring names the rule
it formalises. -/

namespace Sys2Proof.Claims

open Sys2Proof.Machine Polynomial

/-- The polynomial over GF(2) that a value in normal orientation stands for (R9). -/
noncomputable def polyOf (v : Word) : (ZMod 2)[X] :=
  ∑ i ∈ Finset.range 64, if v.getLsbD i then X ^ i else 0

/-- `P(x) = x^W + sum of p[i]·x^i` (R9). -/
noncomputable def generatorOf (w : Nat) (p : Word) : (ZMod 2)[X] := X ^ w + polyOf p

/-- The polynomial of a register in native orientation: a reflected register is reversed first (R12). -/
noncomputable def nativePolyOf (w : Nat) (ri : Bool) (v : Word) : (ZMod 2)[X] :=
  polyOf (if ri then rev w v else v)

/-- One update command on a context, with the ARG0 write that UPDD needs before it (R143). -/
inductive Feed where
  | byte (c : Byte)
  | packed (arg0 : Word) (n : Fin 9)

/-- The bytes that a feed consumes, in order: UPDD takes bits 8k+7:8k of ARG0 for k < n (R55). -/
def Feed.bytes : Feed → List Byte
  | .byte c => [c]
  | .packed v n => (List.range n.val).map fun k => v.extractLsb' (8 * k) 8

/-- The feed as commands on context d. -/
def Feed.perform (d : CtxIdx) : Feed → State → Result
  | .byte c, s => exec (.updb d c) s
  | .packed v n, s => exec (.updd d n) { s with arg0 := v }

/-- Feeds one after the other. -/
def feedAll (d : CtxIdx) : List Feed → State → Result
  | [], s => .next s
  | f :: fs, s =>
    match f.perform d s with
    | .next t => feedAll d fs t
    | other => other

/-- The contexts that a command looks at (R82: D and S). -/
def contextsOf : Instr → List CtxIdx
  | .nop | .srst => []
  | .config d _ _ _ | .start d | .resume d | .updb d _ | .updd d _ | .finish d | .combv d | .combf d
  | .shift d | .tblrd d _ | .query d _ => [d]
  | .combine d src | .compat d src => [d, src]

/-- "IllegalCommand (decode)": a value with opcode `op` that decodes to no command raises it, with no other effect. -/
def IllegalOtherwise (op : Byte) : Prop :=
  ∀ (s : State) (v : Word), fieldOp v = op → (∀ i, decode s.cfg.nctx v ≠ .ok i) →
    commandWrite v s = raiseError .illegalCommand s

end Sys2Proof.Claims

open Sys2Proof Sys2Proof.Machine Sys2Proof.Claims

/-! ### One command each: what it does, when it raises, how it is encoded -/

/-- R190. -/
def Obligations.NopOnlyClearsErr : Prop :=
  (∀ s : State, exec .nop s = .next { s with err := .ok }) ∧
  (∀ n : Nat, decode n 0 = .ok .nop) ∧
  (∀ (s : State) (v : Word), fieldOp v = 0x00 → v ≠ 0 → commandWrite v s = raiseError .illegalCommand s)

/-- R192. -/
def Obligations.SrstGivesTheResetState : Prop :=
  (∀ s : State, exec .srst s = .next { s with
    arg0 := 0, arg1 := 0, arg2 := 0, res := 0, err := .ok, sticky := 0
    ctxs := Vector.replicate 4 .unconf }) ∧
  (∀ s t : State, exec .srst s = .next t → t.statusWord = 0 ∧ t.idWord = s.idWord) ∧
  (∀ s t a : State, s.resetAsserted = false → exec .srst s = .next t →
    performEvent .assertReset s = .next a → performEvent .releaseReset a = .next t) ∧
  (∀ n : Nat, decode n 0x0E = .ok .srst) ∧
  (∀ (s : State) (v : Word), fieldOp v = 0x0E → v ≠ 0x0E → commandWrite v s = raiseError .illegalCommand s)

/-- R106 with the validation of R100. -/
def Obligations.ConfigLoadsDescriptorOrChangesNothing : Prop :=
  ∀ (s : State) (d : CtxIdx) (width : Byte) (ri ro : Bool),
    let w := width.toNat
    let mask : Word := BitVec.ofNat 64 (2 ^ w - 1)
    ((w < 1 ∨ 64 < w ∨ (s.arg0 &&& mask).getLsbD 0 = false) →
      exec (.config d width ri ro) s = raiseError .invalidConfig s) ∧
    (1 ≤ w → w ≤ 64 → (s.arg0 &&& mask).getLsbD 0 = true →
      ∃ table : Table, (∀ k : Byte, table.entry k = byteStep w (s.arg0 &&& mask) ri 0 k) ∧
        exec (.config d width ri ro) s = .next { s with
          ctxs := s.ctxs.set d.val (.conf
            { width := w, poly := s.arg0 &&& mask, init := s.arg1 &&& mask, refIn := ri, refOut := ro
              xorOut := s.arg2 &&& mask } table)
          err := .ok }) ∧
    (∀ (n : Nat) (v : Word), decode n v = .ok (.config d width ri ro) ↔
      d.val < n ∧ v = commandWord 0x01 d 0 ri ro width) ∧
    IllegalOtherwise 0x01

/-- R107. -/
def Obligations.StartSeedsFromInit : Prop :=
  ∀ (s : State) (d : CtxIdx),
    (s.ctx d = .unconf → exec (.start d) s = raiseError .unsupportedOperation s) ∧
    (∀ (desc : Desc) (table : Table),
      (s.ctx d = .conf desc table ∨ ∃ reg len, s.ctx d = .active desc table reg len) →
      exec (.start d) s = .next { s with
        ctxs := s.ctxs.set d.val
          (.active desc table (if desc.refIn then rev desc.width desc.init else desc.init) 0)
        err := .ok }) ∧
    (∀ (n : Nat) (v : Word), decode n v = .ok (.start d) ↔
      d.val < n ∧ v = commandWord 0x02 d 0 false false 0) ∧
    IllegalOtherwise 0x02

/-- R109, with the inverse that its corner case names: FINISH straight after RESUME returns ARG0 & mask. -/
def Obligations.ResumeContinuesFromChecksum : Prop :=
  ∀ (s : State) (d : CtxIdx),
    (s.ctx d = .unconf → exec (.resume d) s = raiseError .unsupportedOperation s) ∧
    (∀ (desc : Desc) (table : Table),
      (s.ctx d = .conf desc table ∨ ∃ reg len, s.ctx d = .active desc table reg len) →
      exec (.resume d) s = .next { s with
        ctxs := s.ctxs.set d.val (.active desc table
          (unfinalize desc (s.arg0 &&& BitVec.ofNat 64 (2 ^ desc.width - 1))) 0)
        err := .ok }) ∧
    (∀ (desc : Desc) (table : Table) (t u : State), desc.Valid →
      (s.ctx d = .conf desc table ∨ ∃ reg len, s.ctx d = .active desc table reg len) →
      exec (.resume d) s = .next t → exec (.finish d) t = .next u →
      u.res = s.arg0 &&& BitVec.ofNat 64 (2 ^ desc.width - 1)) ∧
    (∀ (n : Nat) (v : Word), decode n v = .ok (.resume d) ↔
      d.val < n ∧ v = commandWord 0x03 d 0 false false 0) ∧
    IllegalOtherwise 0x03

/-- R141. -/
def Obligations.UpdbConsumesItsByte : Prop :=
  ∀ (s : State) (d : CtxIdx) (c : Byte),
    ((s.ctx d).phase ≠ .active → exec (.updb d c) s = raiseError .unsupportedOperation s) ∧
    (∀ (desc : Desc) (table : Table) (reg len : Word), s.ctx d = .active desc table reg len →
      exec (.updb d c) s = .next { s with
        ctxs := s.ctxs.set d.val (.active desc table (update1 desc table reg c) (len + 1))
        err := .ok }) ∧
    (∀ (n : Nat) (v : Word), decode n v = .ok (.updb d c) ↔
      d.val < n ∧ v = commandWord 0x04 d 0 false false c) ∧
    IllegalOtherwise 0x04

/-- R142, with R55's lane order. -/
def Obligations.UpddConsumesLanesOfArg0 : Prop :=
  ∀ (s : State) (d : CtxIdx) (count : Fin 9),
    ((s.ctx d).phase ≠ .active → exec (.updd d count) s = raiseError .unsupportedOperation s) ∧
    (∀ (desc : Desc) (table : Table) (reg len : Word), s.ctx d = .active desc table reg len →
      exec (.updd d count) s = .next { s with
        ctxs := s.ctxs.set d.val (.active desc table
          (((List.range count.val).map fun k => s.arg0.extractLsb' (8 * k) 8).foldl (update1 desc table) reg)
          (len + BitVec.ofNat 64 count.val))
        err := .ok }) ∧
    ((s.ctx d).phase = .active → exec (.updd d 0) s = .next { s with err := .ok }) ∧
    ((s.ctx d).phase = .active → exec (.updd d 1) s = exec (.updb d (s.arg0.extractLsb' 0 8)) s) ∧
    (∀ (n : Nat) (v : Word), decode n v = .ok (.updd d count) ↔
      d.val < n ∧ v = commandWord 0x05 d 0 false false (BitVec.ofNat 8 count.val)) ∧
    IllegalOtherwise 0x05

/-- R147. -/
def Obligations.FinishReturnsFinalizedRegister : Prop :=
  ∀ (s : State) (d : CtxIdx),
    ((s.ctx d).phase ≠ .active → exec (.finish d) s = raiseError .unsupportedOperation s) ∧
    (∀ (desc : Desc) (table : Table) (reg len : Word), s.ctx d = .active desc table reg len →
      exec (.finish d) s = .next { s with res := finalize desc reg, err := .ok } ∧
      (desc.Valid → Fits desc.width reg → Fits desc.width (finalize desc reg))) ∧
    (∀ (n : Nat) (v : Word), decode n v = .ok (.finish d) ↔
      d.val < n ∧ v = commandWord 0x06 d 0 false false 0) ∧
    IllegalOtherwise 0x06

/-- R170. -/
def Obligations.CombineMergesSourceIntoDestination : Prop :=
  ∀ (s : State) (d src : CtxIdx),
    (((s.ctx d).phase ≠ .active ∨ (s.ctx src).phase ≠ .active) →
      exec (.combine d src) s = raiseError .unsupportedOperation s) ∧
    (∀ (descA descB : Desc) (tableA tableB : Table) (regA lenA regB lenB : Word),
      s.ctx d = .active descA tableA regA lenA → s.ctx src = .active descB tableB regB lenB →
      (descA ≠ descB → exec (.combine d src) s = raiseError .typeMismatch s) ∧
      (descA = descB → exec (.combine d src) s = .next { s with
        ctxs := s.ctxs.set d.val (.active descA tableA (combineRaw descA regA lenB regB) (lenA + lenB))
        err := .ok })) ∧
    (∀ (t : State), src ≠ d → exec (.combine d src) s = .next t → t.ctx src = s.ctx src) ∧
    (∀ (n : Nat) (v : Word), decode n v = .ok (.combine d src) ↔
      d.val < n ∧ src.val < n ∧ v = commandWord 0x07 d src false false 0) ∧
    IllegalOtherwise 0x07

/-- R172. -/
def Obligations.CombvMergesChecksumIntoContext : Prop :=
  ∀ (s : State) (d : CtxIdx),
    ((s.ctx d).phase ≠ .active → exec (.combv d) s = raiseError .unsupportedOperation s) ∧
    (∀ (desc : Desc) (table : Table) (reg len : Word), s.ctx d = .active desc table reg len →
      exec (.combv d) s = .next { s with
        ctxs := s.ctxs.set d.val (.active desc table
          (combineRaw desc reg s.arg1 (unfinalize desc (s.arg0 &&& BitVec.ofNat 64 (2 ^ desc.width - 1))))
          (len + s.arg1))
        err := .ok }) ∧
    (∀ (desc : Desc) (table : Table) (reg len : Word), s.ctx d = .active desc table reg len → desc.Valid →
      Fits desc.width reg → s.arg1 = 0 → s.arg0 = finalize desc desc.ninit →
      exec (.combv d) s = .next { s with err := .ok }) ∧
    (∀ (n : Nat) (v : Word), decode n v = .ok (.combv d) ↔
      d.val < n ∧ v = commandWord 0x08 d 0 false false 0) ∧
    IllegalOtherwise 0x08

/-- R174. -/
def Obligations.CombfReturnsPureCombination : Prop :=
  ∀ (s : State) (d : CtxIdx),
    (s.ctx d = .unconf → exec (.combf d) s = raiseError .unsupportedOperation s) ∧
    (∀ (desc : Desc) (table : Table),
      (s.ctx d = .conf desc table ∨ ∃ reg len, s.ctx d = .active desc table reg len) →
      let mask : Word := BitVec.ofNat 64 (2 ^ desc.width - 1)
      exec (.combf d) s = .next { s with
        res := combineFin desc (s.arg0 &&& mask) s.arg1 (s.arg2 &&& mask)
        err := .ok } ∧
      (desc.Valid → Fits desc.width (combineFin desc (s.arg0 &&& mask) s.arg1 (s.arg2 &&& mask))) ∧
      (desc.Valid → s.arg1 = 0 → s.arg2 = finalize desc desc.ninit →
        combineFin desc (s.arg0 &&& mask) s.arg1 (s.arg2 &&& mask) = s.arg0 &&& mask)) ∧
    (∀ (n : Nat) (v : Word), decode n v = .ok (.combf d) ↔
      d.val < n ∧ v = commandWord 0x09 d 0 false false 0) ∧
    IllegalOtherwise 0x09

/-- R166: the result is M^(8n)·r, said as 8n applications of the zero-bit step (R160, R161), for every n < 2^64. -/
def Obligations.ShiftReturnsZeroShiftedRegister : Prop :=
  ∀ (s : State) (d : CtxIdx),
    (s.ctx d = .unconf → exec (.shift d) s = raiseError .unsupportedOperation s) ∧
    (∀ (desc : Desc) (table : Table), desc.Valid →
      (s.ctx d = .conf desc table ∨ ∃ reg len, s.ctx d = .active desc table reg len) →
      exec (.shift d) s = .next { s with
        res := (fun r => stepBit desc.width desc.poly desc.refIn r false)^[8 * s.arg1.toNat]
          (s.arg0 &&& BitVec.ofNat 64 (2 ^ desc.width - 1))
        err := .ok }) ∧
    (∀ (n : Nat) (v : Word), decode n v = .ok (.shift d) ↔
      d.val < n ∧ v = commandWord 0x0A d 0 false false 0) ∧
    IllegalOtherwise 0x0A

/-- R114 with the predicate of R113, all six fields compared (conflict C5). -/
def Obligations.CompatComparesDescriptors : Prop :=
  ∀ (s : State) (d src : CtxIdx),
    (∀ a b : Desc, (s.ctx d).desc? = some a → (s.ctx src).desc? = some b →
      a.width = b.width → a.poly = b.poly → a.init = b.init → a.refIn = b.refIn → a.refOut = b.refOut →
      a.xorOut = b.xorOut → exec (.compat d src) s = .next { s with res := 1, err := .ok }) ∧
    (∀ a b : Desc, (s.ctx d).desc? = some a → (s.ctx src).desc? = some b →
      (a.width ≠ b.width ∨ a.poly ≠ b.poly ∨ a.init ≠ b.init ∨ a.refIn ≠ b.refIn ∨ a.refOut ≠ b.refOut ∨
        a.xorOut ≠ b.xorOut) → exec (.compat d src) s = .next { s with res := 0, err := .ok }) ∧
    ((s.ctx d = .unconf ∨ s.ctx src = .unconf) →
      exec (.compat d src) s = .next { s with res := 0, err := .ok }) ∧
    (∀ (n : Nat) (v : Word), decode n v = .ok (.compat d src) ↔
      d.val < n ∧ src.val < n ∧ v = commandWord 0x0B d src false false 0) ∧
    IllegalOtherwise 0x0B

/-- R116; entry 0 of a context's own table is 0 (R105). -/
def Obligations.TblrdReturnsTableEntry : Prop :=
  ∀ (s : State) (d : CtxIdx) (k : Byte),
    (s.ctx d = .unconf → exec (.tblrd d k) s = raiseError .unsupportedOperation s) ∧
    (∀ (desc : Desc) (table : Table),
      (s.ctx d = .conf desc table ∨ ∃ reg len, s.ctx d = .active desc table reg len) →
      exec (.tblrd d k) s = .next { s with res := table.entry k, err := .ok }) ∧
    (∀ (desc : Desc) (table : Table) (t : State), (s.ctx d).Valid →
      (s.ctx d = .conf desc table ∨ ∃ reg len, s.ctx d = .active desc table reg len) →
      exec (.tblrd d k) s = .next t → (k = 0 → t.res = 0) ∧ Fits desc.width t.res) ∧
    (∀ (n : Nat) (v : Word), decode n v = .ok (.tblrd d k) ↔
      d.val < n ∧ v = commandWord 0x0C d 0 false false k) ∧
    IllegalOtherwise 0x0C

/-- R118. -/
def Obligations.QueryReturnsSelectedField : Prop :=
  ∀ (s : State) (d : CtxIdx),
    (∀ q, (s.ctx d).phase ≠ .active → exec (.query d q) s = raiseError .unsupportedOperation s) ∧
    (∀ (desc : Desc) (table : Table) (reg len : Word), s.ctx d = .active desc table reg len →
      exec (.query d .width) s = .next { s with res := BitVec.ofNat 64 desc.width, err := .ok } ∧
      exec (.query d .poly) s = .next { s with res := desc.poly, err := .ok } ∧
      exec (.query d .init) s = .next { s with res := desc.init, err := .ok } ∧
      exec (.query d .xorOut) s = .next { s with res := desc.xorOut, err := .ok } ∧
      exec (.query d .flags) s = .next { s with
        res := BitVec.ofNat 64 (2 * desc.refOut.toNat + desc.refIn.toNat), err := .ok } ∧
      exec (.query d .reg) s = .next { s with res := reg, err := .ok } ∧
      exec (.query d .len) s = .next { s with res := len, err := .ok }) ∧
    (∀ (n : Nat) (v : Word) (q : Selector), decode n v = .ok (.query d q) ↔
      d.val < n ∧ v = commandWord 0x0D d 0 false false
        (match q with
          | .width => 0 | .poly => 1 | .init => 2 | .xorOut => 3 | .flags => 4 | .reg => 5 | .len => 6)) ∧
    (∀ (v : Word), fieldOp v = 0x0D → 6 < (fieldImm v).toNat →
      commandWrite v s = raiseError .illegalCommand s) ∧
    IllegalOtherwise 0x0D

/-! ### What holds of every command -/

/-- R203 and D22: "an operation either fully succeeds or fails"; a command write always answers a next state. -/
def Obligations.EveryCommandWriteCompletes : Prop :=
  (∀ (i : Instr) (s : State), ∃ t, exec i s = .next t) ∧
  (∀ (v : Word) (s : State), ∃ t, commandWrite v s = .next t)

/-- R203, on the whole state and on the value that STATUS reads. -/
def Obligations.ErrorChangesOnlyStatus : Prop :=
  ∀ (s t : State) (v : Word), commandWrite v s = .next t → t.err ≠ .ok →
    t = { s with err := t.err, sticky := s.sticky ||| ((1 : BitVec 4) <<< (t.err.code.toNat - 1)) } ∧
    t.statusWord = (s.statusWord &&& ~~~(0xF : Word)) ||| t.err.code.setWidth 64 |||
      ((1 : Word) <<< (7 + t.err.code.toNat))

/-- R201, R202 and R205: the completion code of every value written to CMD. -/
def Obligations.CompletionCodeFollowsPriority : Prop :=
  ∀ (s t : State) (v : Word), commandWrite v s = .next t →
    t.err =
      match decode s.cfg.nctx v with
      | .error _ => .illegalCommand
      | .ok i =>
        if i.lacks s then .unsupportedOperation
        else
          match i with
          | .config _ width _ _ =>
            if width.toNat < 1 ∨ 64 < width.toNat ∨
                (s.arg0 &&& BitVec.ofNat 64 (2 ^ width.toNat - 1)).getLsbD 0 = false then .invalidConfig
            else .ok
          | .combine d src => if (s.ctx d).desc? = (s.ctx src).desc? then .ok else .typeMismatch
          | _ => .ok

/-- R232 with R201: a command that names a context without a descriptor ends with UnsupportedOperation, unless it is
CONFIG or COMPAT (NOP and SRST name none). -/
def Obligations.UnconfiguredContextsSupportNothing : Prop :=
  ∀ (i : Instr) (s : State) (c : CtxIdx), c ∈ contextsOf i → s.ctx c = .unconf →
    (∀ d width ri ro, i ≠ .config d width ri ro) → (∀ d src, i ≠ .compat d src) →
    exec i s = raiseError .unsupportedOperation s

/-- R25: "Only a write of 1 to a sticky bit clears it, or SRST, or reset." -/
def Obligations.StickyBitsClearOnlyWhenAsked : Prop :=
  ∀ (e : BusEvent) (s t : State) (i : Nat), performEvent e s = .next t →
    s.sticky.getLsbD i = true → t.sticky.getLsbD i = false →
    e = .assertReset ∨
    ∃ (a : Access) (v : Word), e = .access a ∧ a.op = .write v ∧
      ((a.target s.cfg = some .status ∧ v.getLsbD (8 + i) = true) ∨
        (a.target s.cfg = some .cmd ∧ v = 0x0E))

/-- R23. -/
def Obligations.ArgsHoldWhatTheHostLastWrote : Prop :=
  (∀ (s : State) (v : Word),
    busWrite .arg0 v s = .next { s with arg0 := v } ∧
    busWrite .arg1 v s = .next { s with arg1 := v } ∧
    busWrite .arg2 v s = .next { s with arg2 := v }) ∧
  (∀ (e : BusEvent) (s t : State), performEvent e s = .next t →
    (t.arg0 ≠ s.arg0 ∨ t.arg1 ≠ s.arg1 ∨ t.arg2 ≠ s.arg2) →
    e = .assertReset ∨
    ∃ (a : Access) (v : Word), e = .access a ∧ a.op = .write v ∧
      ((a.target s.cfg = some .arg0 ∧ t = { s with arg0 := v }) ∨
        (a.target s.cfg = some .arg1 ∧ t = { s with arg1 := v }) ∨
        (a.target s.cfg = some .arg2 ∧ t = { s with arg2 := v }) ∨
        (a.target s.cfg = some .cmd ∧ v = 0x0E))) ∧
  (∀ (i : Instr) (s t : State), exec i s = .next t → i ≠ .srst →
    t.arg0 = s.arg0 ∧ t.arg1 = s.arg1 ∧ t.arg2 = s.arg2)

/-- R24, with the reset input of R21 and R230 among the causes: what any bus event, any command and a host write do to
RES. That asserting reset is an event that clears it at once is log 7. -/
def Obligations.ResIsWrittenOnlyByResultCommands : Prop :=
  (∀ (e : BusEvent) (s t : State), performEvent e s = .next t → t.res ≠ s.res →
    (e = .assertReset ∧ t.res = 0) ∨
    ∃ (a : Access) (v : Word) (i : Instr), e = .access a ∧ a.op = .write v ∧ a.target s.cfg = some .cmd ∧
      decode s.cfg.nctx v = .ok i ∧ exec i s = .next t ∧
      ((i.answers = true ∧ t.err = .ok) ∨ (i = .srst ∧ t.res = 0))) ∧
  (∀ (i : Instr) (s t : State), exec i s = .next t → t.res ≠ s.res →
    (t.err = .ok ∧
      ((∃ d, i = .finish d) ∨ (∃ d, i = .combf d) ∨ (∃ d, i = .shift d) ∨ (∃ d src, i = .compat d src) ∨
        (∃ d k, i = .tblrd d k) ∨ (∃ d q, i = .query d q))) ∨
    (i = .srst ∧ t.res = 0)) ∧
  (∀ (s : State) (v : Word), busWrite .res v s = .next s)

/-- R28: the transitions of STATE, by commands and by reset. That reset is an event which acts at once, in the second
clause, is log 7 (DEDUCED). -/
def Obligations.ContextStateTransitions : Prop :=
  (∀ (i : Instr) (s t : State) (c : CtxIdx), exec i s = .next t →
    (t.ctx c).phase =
      match i with
      | .srst => .unconf
      | .config d _ _ _ => if d = c ∧ t.err = .ok then .conf else (s.ctx c).phase
      | .start d | .resume d =>
        if d = c ∧ (s.ctx c).phase ≠ .unconf then .active else (s.ctx c).phase
      | _ => (s.ctx c).phase) ∧
  (∀ (s t : State) (c : CtxIdx), performEvent .assertReset s = .next t → t.ctx c = .unconf) ∧
  (∀ (cfg : Config) (c : CtxIdx), ((State.resetOf cfg).ctx c).phase = .unconf)

/-- R29: a context holds a descriptor exactly in CONF and ACTIVE, and only a successful CONFIG writes it. -/
def Obligations.DescriptorIsImmutable : Prop :=
  (∀ (s : State) (c : CtxIdx), ((s.ctx c).desc?.isSome = true ↔ (s.ctx c).phase ≠ .unconf)) ∧
  (∀ (i : Instr) (s t : State) (c : CtxIdx) (x : Desc), exec i s = .next t → (t.ctx c).desc? = some x →
    (s.ctx c).desc? = some x ∨
    ∃ width ri ro, i = .config c width ri ro ∧ t.err = .ok ∧
      x = { width := width.toNat
            poly := s.arg0 &&& BitVec.ofNat 64 (2 ^ width.toNat - 1)
            init := s.arg1 &&& BitVec.ofNat 64 (2 ^ width.toNat - 1)
            refIn := ri
            refOut := ro
            xorOut := s.arg2 &&& BitVec.ofNat 64 (2 ^ width.toNat - 1) })

/-- The frame of every command (R20, R23, R24, R25, R28): what it leaves unchanged. There is no memory. -/
def Obligations.CommandFrame : Prop :=
  ∀ (i : Instr) (s t : State), exec i s = .next t →
    t.cfg = s.cfg ∧ t.resetAsserted = s.resetAsserted ∧ t.pending = s.pending ∧ t.replies = s.replies ∧
    (i ≠ .srst →
      t.arg0 = s.arg0 ∧ t.arg1 = s.arg1 ∧ t.arg2 = s.arg2 ∧
      (i.answers = false → t.res = s.res) ∧
      t.sticky = s.sticky ||| t.err.stickyBit ∧
      (∀ c, (∀ phase, i.loads ≠ some (c, phase)) → t.ctx c = s.ctx c))

/-- R20 and R35, "Nothing else is architectural": a command's completion code, its result and what it leaves in its
destination context depend on nothing but ARG0 to ARG2 and the contexts it names. -/
def Obligations.CommandsDependOnlyOnTheirOperands : Prop :=
  ∀ (i : Instr) (s s' t t' : State), exec i s = .next t → exec i s' = .next t' →
    s.arg0 = s'.arg0 → s.arg1 = s'.arg1 → s.arg2 = s'.arg2 →
    (∀ c ∈ contextsOf i, s.ctx c = s'.ctx c) →
    t.err = t'.err ∧
    (∀ c ∈ contextsOf i, t.ctx c = t'.ctx c) ∧
    (i.answers = true → t.err = .ok → t.res = t'.res)

/-! ### The register window and the bus -/

/-- R58 with the registers of R21 and R22: what each access to the window does. -/
def Obligations.WindowAccessEffects : Prop :=
  ∀ (s : State) (a : Access) (r : WinReg), s.resetAsserted = false → a.target s.cfg = some r →
    (a.op = .read → performAccess a s = .next { s with
      replies := { master := a.master
                   data := match r with
                     | .cmd => 0 | .arg0 => s.arg0 | .arg1 => s.arg1 | .arg2 => s.arg2 | .res => s.res
                     | .status => s.statusWord | .id => s.idWord | .reserved => 0 } :: s.replies }) ∧
    (∀ v, a.op = .write v → performAccess a s =
      match r with
      | .cmd => (match decode s.cfg.nctx v with
        | .ok i => exec i s
        | .error _ => raiseError .illegalCommand s)
      | .arg0 => .next { s with arg0 := v }
      | .arg1 => .next { s with arg1 := v }
      | .arg2 => .next { s with arg2 := v }
      | .status => .next { s with sticky := s.sticky &&& ~~~(v.extractLsb' 8 4) }
      | .res | .id | .reserved => .next s)

/-- R51 and R52: which accesses to the window are performed, and the bus error for every other. The register that an
admitted access reaches is R21's. -/
def Obligations.AdmittedAccesses : Prop :=
  ∀ (s : State) (a : Access), s.resetAsserted = false →
    ((a.bytes = 8 ∧ ∃ k < 8, a.addr = s.cfg.crcBase + 8 * k) → ∃ t, performAccess a s = .next t) ∧
    (a.addr < s.cfg.crcBase + 0x40 → s.cfg.crcBase < a.addr + a.bytes →
      ¬ (a.bytes = 8 ∧ ∃ k < 8, a.addr = s.cfg.crcBase + 8 * k) → performAccess a s = .fault .busError) ∧
    (a.bytes = 8 → ∀ r : WinReg, (a.target s.cfg = some r ↔ a.addr = s.cfg.crcBase + r.offset))

/-- R230: what the reset input does, and that no access is admitted while it is asserted. That asserting it is an event
which gives the reset state at once and leaves the pending events is log 7 (DEDUCED and DESIGN CHOICE). -/
def Obligations.ResetInputResetsTheDevice : Prop :=
  (∀ s : State, performEvent .assertReset s = .next { s with
    arg0 := 0, arg1 := 0, arg2 := 0, res := 0, err := .ok, sticky := 0
    ctxs := Vector.replicate 4 .unconf, resetAsserted := true }) ∧
  (∀ s t : State, performEvent .assertReset s = .next t → t.statusWord = 0 ∧ t.idWord = s.idWord) ∧
  (∀ s t u : State, performEvent .assertReset s = .next t → exec .srst s = .next u →
    t = { u with resetAsserted := true }) ∧
  (∀ (s t : State) (a : Access), s.resetAsserted = true → performAccess a s ≠ .next t)

/-- R21, R25, R28 and R230: what the host reads right after reset, for every legal NCTX, and the ID of the spec's
instance (R27). -/
def Obligations.ResetValues : Prop :=
  (∀ cfg : Config,
    (State.resetOf cfg).busRead .arg0 = 0 ∧ (State.resetOf cfg).busRead .arg1 = 0 ∧
    (State.resetOf cfg).busRead .arg2 = 0 ∧ (State.resetOf cfg).busRead .res = 0 ∧
    (State.resetOf cfg).busRead .status = 0 ∧ (State.resetOf cfg).busRead .cmd = 0 ∧
    (State.resetOf cfg).busRead .reserved = 0 ∧ ∀ c, (State.resetOf cfg).ctx c = .unconf) ∧
  State.reset.cfg.nctx = 2 ∧ State.reset.busRead .id = 0x4352434340020001

/-- R27. -/
def Obligations.IdLayout : Prop :=
  (∀ s : State, s.cfg.Legal →
    (s.busRead .id).extractLsb' 0 16 = 0x0001 ∧
    ((s.busRead .id).extractLsb' 16 3).toNat = s.cfg.nctx ∧
    (s.busRead .id).extractLsb' 19 5 = 0 ∧
    (s.busRead .id).extractLsb' 24 8 = 0x40 ∧
    (s.busRead .id).extractLsb' 32 32 = 0x43524343) ∧
  (∀ s : State, s.cfg.nctx = 2 → s.busRead .id = 0x4352434340020001)

/-- The bits of STATUS (R25). -/
def Obligations.StatusLayout : Prop :=
  ∀ s : State,
    (s.busRead .status).extractLsb' 0 4 = s.err.code ∧
    (s.busRead .status).extractLsb' 4 4 = 0 ∧
    (s.busRead .status).extractLsb' 8 4 = s.sticky ∧
    (s.busRead .status).extractLsb' 12 4 = 0 ∧
    (∀ c : CtxIdx, (s.busRead .status).extractLsb' (16 + 2 * c.val) 2 =
      if c.val < s.cfg.nctx then
        (match (s.ctx c).phase with | .unconf => 0 | .conf => 1 | .active => 2)
      else 0) ∧
    (s.busRead .status).extractLsb' 24 40 = 0

/-- R26, on the value that STATUS reads. -/
def Obligations.StatusWriteClearsOnlyStickyBits : Prop :=
  ∀ (s t : State) (v : Word), busWrite .status v s = .next t →
    t.statusWord = s.statusWord &&& ~~~(v &&& 0xF00) ∧ t = { s with sticky := t.sticky } ∧
    t.sticky = s.sticky &&& ~~~(v.extractLsb' 8 4)

/-- R61, R22 and R83: a step performs the oldest pending event; when that is an admitted CMD write, the step is the
decoded command on the state with the event taken off. -/
def Obligations.StepRunsTheDecodedCommand : Prop :=
  (∀ s : State, s.pending = [] → step s = .next s) ∧
  (∀ (s : State) (e : BusEvent) (rest : List BusEvent), s.pending = e :: rest →
    step s = performEvent e { s with pending := rest }) ∧
  (∀ (s : State) (a : Access) (rest : List BusEvent) (v : Word) (i : Instr),
    s.pending = .access a :: rest → s.resetAsserted = false → a.target s.cfg = some .cmd → a.op = .write v →
    decode s.cfg.nctx v = .ok i → step s = exec i { s with pending := rest }) ∧
  (∀ (s : State) (a : Access) (rest : List BusEvent) (v : Word) (x : DecodeError),
    s.pending = .access a :: rest → s.resetAsserted = false → a.target s.cfg = some .cmd → a.op = .write v →
    decode s.cfg.nctx v = .error x → step s = raiseError .illegalCommand { s with pending := rest })

/-- Which steps are safe: all but an access that R51 and R230 do not admit. That an access outside the window stops
the model is log 6. -/
def Obligations.SafeSteps : Prop :=
  ∀ s : State, Safe s ↔
    ∀ (a : Access) (rest : List BusEvent), s.pending = .access a :: rest →
      s.resetAsserted = false ∧ a.bytes = 8 ∧ ∃ k < 8, a.addr = s.cfg.crcBase + 8 * k

/-- R209: "the device tells no masters apart": whoever makes an access, the device ends in the same state, and a read
answers the same datum. -/
def Obligations.MastersAreNotToldApart : Prop :=
  ∀ (s : State) (a : Access) (m : Nat),
    (∀ v, a.op = .write v → performAccess { a with master := m } s = performAccess a s) ∧
    (∀ t, a.op = .read → performAccess a s = .next t →
      ∃ datum, t = { s with replies := ⟨a.master, datum⟩ :: s.replies } ∧
        performAccess { a with master := m } s = .next { s with replies := ⟨m, datum⟩ :: s.replies }) ∧
    (∀ f, performAccess a s = .fault f → performAccess { a with master := m } s = .fault f)

/-- The invariant of the machine (R25, R30, R31, R32, R230) is kept by every step, from every state that has it. -/
def Obligations.StepKeepsTheInvariant : Prop :=
  ∀ s t : State, s.Inv → step s = .next t → t.Inv

/-- The state after reset has the invariant, for every legal choice of the parameters (R5, R230). -/
def Obligations.ResetHasTheInvariant : Prop :=
  (∀ cfg : Config, cfg.Legal → (State.resetOf cfg).Inv) ∧ State.reset.Inv

/-! ### Encoding -/

/-- R86 and R83: every command of a device with `n` contexts decodes back from its encoding, with every operand. -/
def Obligations.DecodeOfEncode : Prop :=
  ∀ (n : Nat) (i : Instr), i.wf n = true → decode n (encode i) = .ok i

/-- R83 and R85: a value that decodes is the encoding of a command that the device has, and of no other. -/
def Obligations.EncodeOfDecode : Prop :=
  ∀ (n : Nat) (v : Word) (i : Instr), decode n v = .ok i → i.wf n = true ∧ encode i = v

/-- R85: the encodings that are illegal are exactly these, and each ends with IllegalCommand and no other effect. -/
def Obligations.IllegalEncodings : Prop :=
  ∀ (s : State) (v : Word),
    ((fieldZhi v ≠ 0 ∨ fieldRsv1 v ≠ 0 ∨ fieldRsv0 v ≠ 0 ∨ 0x0F ≤ (fieldOp v).toNat ∨
      (∃ op : Opcode, op.code = fieldOp v ∧
        ((op.uses.d = false ∧ fieldD v ≠ 0) ∨ (op.uses.s = false ∧ fieldS v ≠ 0) ∨
          (op.uses.flags = false ∧ (fieldRi v = true ∨ fieldRo v = true)) ∨
          (op.uses.imm = false ∧ fieldImm v ≠ 0) ∨
          (op.uses.d = true ∧ s.cfg.nctx ≤ (fieldD v).val) ∨
          (op.uses.s = true ∧ s.cfg.nctx ≤ (fieldS v).val) ∨
          (op = .updd ∧ 8 < (fieldImm v).toNat) ∨ (op = .query ∧ 6 < (fieldImm v).toNat)))) ↔
      ∃ x, decode s.cfg.nctx v = .error x) ∧
    (∀ x, decode s.cfg.nctx v = .error x → commandWrite v s = .next { s with
      err := .illegalCommand, sticky := s.sticky ||| 8 })

/-- A few values of the spec's own programs and decode vectors (R86; 95_test_vectors.md L2.5.1) decode as it says. -/
def Obligations.SpecWordsDecode : Prop :=
  decode 2 0x0000000000310104 = .ok (.updb 1 0x31) ∧
  decode 2 0x0000000000203001 = .ok (.config 0 32 true true) ∧
  decode 2 0x0000000000000407 = .ok (.combine 0 1) ∧
  decode 2 0x0000000000080005 = .ok (.updd 0 8) ∧
  decode 2 0x000000000006000D = .ok (.query 0 .len) ∧
  decode 2 0x000000000000000E = .ok .srst ∧
  decode 2 0x0000000000000C07 = .error .contextS ∧
  decode 2 0x0000000000090005 = .error .count

/-! ### Arithmetic -/

/-- R8. -/
def Obligations.ReversalReversesBits : Prop :=
  ∀ (n : Nat) (v : Word), 1 ≤ n → n ≤ 64 → Fits n v →
    Fits n (rev n v) ∧ (∀ i < n, (rev n v).getLsbD i = v.getLsbD (n - 1 - i)) ∧ rev n (rev n v) = v

/-- R101 and R102, bit by bit: what each bit of the register is after one input bit, and the order of a byte's bits. -/
def Obligations.BitStepsDivide : Prop :=
  ∀ (w : Nat) (p r : Word) (b : Bool), 1 ≤ w → w ≤ 64 → Fits w p → Fits w r →
    (∀ i < w, (stepN w p r b).getLsbD i =
      ((decide (0 < i) && r.getLsbD (i - 1)) ^^ (p.getLsbD i && (r.getLsbD (w - 1) ^^ b)))) ∧
    (∀ i < w, (stepR (rev w p) r b).getLsbD i =
      (r.getLsbD (i + 1) ^^ (p.getLsbD (w - 1 - i) && (r.getLsbD 0 ^^ b)))) ∧
    Fits w (stepN w p r b) ∧ Fits w (stepR (rev w p) r b) ∧
    (∀ c : Byte, byteN w p r c =
      [c.getLsbD 7, c.getLsbD 6, c.getLsbD 5, c.getLsbD 4, c.getLsbD 3, c.getLsbD 2, c.getLsbD 1,
        c.getLsbD 0].foldl (stepN w p) r) ∧
    (∀ c : Byte, byteR (rev w p) r c =
      [c.getLsbD 0, c.getLsbD 1, c.getLsbD 2, c.getLsbD 3, c.getLsbD 4, c.getLsbD 5, c.getLsbD 6,
        c.getLsbD 7].foldl (stepR (rev w p)) r)

/-- R105: the table laws, two of them as remainders of polynomials over GF(2), and R104's range of the entries: with it
the reversal of an entry fixes the entry. -/
def Obligations.TableLaws : Prop :=
  ∀ (w : Nat) (p : Word) (ri : Bool), 1 ≤ w → w ≤ 64 → Fits w p → p.getLsbD 0 = true →
    (tableOf w p ri).entry 0 = 0 ∧
    (∀ c : Byte, Fits w ((tableOf w p ri).entry c)) ∧
    (∀ a b : Byte, (tableOf w p ri).entry (a ^^^ b) = (tableOf w p ri).entry a ^^^ (tableOf w p ri).entry b) ∧
    (ri = false → ∀ c : Byte, polyOf ((tableOf w p ri).entry c) =
      (polyOf (c.setWidth 64) * Polynomial.X ^ w) %ₘ generatorOf w p) ∧
    (ri = true → ∀ c : Byte, polyOf (rev w ((tableOf w p ri).entry c)) =
      (polyOf (rev 8 (c.setWidth 64)) * Polynomial.X ^ w) %ₘ generatorOf w p)

/-- R140: the table-driven update is the bit-serial one, for every width, register and byte. -/
def Obligations.TableUpdateIsBitSerialUpdate : Prop :=
  ∀ (d : Desc) (r : Word) (c : Byte), d.Valid → Fits d.width r →
    update1 d d.tableOf r c = d.byteStep r c ∧ Fits d.width (update1 d d.tableOf r c) ∧
    (∀ table : Table,
      (d.refIn = true → update1 d table r c = table.entry ((r ^^^ c.setWidth 64).setWidth 8) ^^^ (r >>> 8)) ∧
      (d.refIn = false → 8 ≤ d.width → update1 d table r c =
        table.entry (((r >>> (d.width - 8)) ^^^ c.setWidth 64).setWidth 8) ^^^
          ((r <<< 8) &&& BitVec.ofNat 64 (2 ^ d.width - 1))) ∧
      (d.refIn = false → d.width < 8 → update1 d table r c =
        table.entry (((r <<< (8 - d.width)) ^^^ c.setWidth 64).setWidth 8)))

/-- R143: any sequence of UPDB and UPDD commands on a context runs the concatenation of their bytes. -/
def Obligations.StreamingLaw : Prop :=
  (∀ (d : Desc) (table : Table) (r : Word) (a b : List Byte),
    runBytes d table r (a ++ b) = runBytes d table (runBytes d table r a) b ∧ runBytes d table r [] = r) ∧
  (∀ (feeds : List Feed) (s : State) (d : CtxIdx) (desc : Desc) (table : Table) (reg len : Word),
    s.ctx d = .active desc table reg len →
    ∃ t, feedAll d feeds s = .next t ∧
      t.ctx d = .active desc table (runBytes desc table reg (feeds.flatMap Feed.bytes))
        (len + BitVec.ofNat 64 (feeds.flatMap Feed.bytes).length) ∧
      ∀ c, c ≠ d → t.ctx c = s.ctx c)

/-- R144, with Z computed by the combine engine for a length below 2^64 (R161). -/
def Obligations.LinearityLaw : Prop :=
  ∀ (d : Desc) (r : Word) (bytes : List Byte), d.Valid → Fits d.width r →
    runBytes d d.tableOf r bytes =
      runBytes d d.tableOf r (List.replicate bytes.length 0) ^^^ runBytes d d.tableOf 0 bytes ∧
    (bytes.length < 2 ^ 64 → runBytes d d.tableOf r bytes =
      zeroShift d r (BitVec.ofNat 64 bytes.length) ^^^ runBytes d d.tableOf 0 bytes)

/-- R161: the engine's result is the register after n zero bytes, and its algebra. -/
def Obligations.ZeroShiftRunsZeroBytes : Prop :=
  ∀ (d : Desc) (r u n m : Word), d.Valid → Fits d.width r → Fits d.width u →
    zeroShift d r n = runBytes d d.tableOf r (List.replicate n.toNat 0) ∧
    zeroShift d r 0 = r ∧ zeroShift d 0 n = 0 ∧
    zeroShift d (r ^^^ u) n = zeroShift d r n ^^^ zeroShift d u n ∧
    (m.toNat + n.toNat < 2 ^ 64 → zeroShift d (zeroShift d r m) n = zeroShift d r (m + n))

/-- R161: Z(r, n) is multiplication by x^(8n) modulo P, the exponent exact. -/
def Obligations.ZeroShiftMultipliesByPowerOfX : Prop :=
  ∀ (d : Desc) (r n : Word), d.Valid → Fits d.width r →
    Fits d.width (zeroShift d r n) ∧
    nativePolyOf d.width d.refIn (zeroShift d r n) =
      (nativePolyOf d.width d.refIn r * Polynomial.X ^ (8 * n.toNat)) %ₘ generatorOf d.width d.poly

/-- R165: Z(r, n) is periodic in n, and with W = 1 it is the identity. The bound 2^W is
inferred (x has an order below 2^W modulo P; R165 says only that it is finite): it makes the period a distance between
two lengths below 2^64. Over all counts the law is said of the zero-bit step, 8 of them a byte (R160, R161). -/
def Obligations.ZeroShiftIsPeriodic : Prop :=
  ∀ d : Desc, d.Valid →
    (∃ period : Nat, 0 < period ∧ period < 2 ^ d.width ∧
      (∀ (r : Word) (n : Nat), Fits d.width r →
        (fun v => stepBit d.width d.poly d.refIn v false)^[8 * (n + period)] r =
          (fun v => stepBit d.width d.poly d.refIn v false)^[8 * n] r) ∧
      ∀ (r n m : Word), Fits d.width r → m.toNat = n.toNat + period → zeroShift d r m = zeroShift d r n) ∧
    (d.width = 1 → ∀ r n : Word, Fits 1 r → zeroShift d r n = r)

/-- R145 and R146. -/
def Obligations.FinalizeAndUnfinalizeAreInverse : Prop :=
  ∀ (d : Desc) (v : Word), d.Valid → Fits d.width v →
    Fits d.width (finalize d v) ∧ Fits d.width (unfinalize d v) ∧
    unfinalize d (finalize d v) = v ∧ finalize d (unfinalize d v) = v ∧
    (d.refIn ≠ d.refOut → finalize d v = rev d.width v ^^^ d.xorOut) ∧
    (d.refIn = d.refOut → finalize d v = v ^^^ d.xorOut)

/-- R163: both forms of the identity, and that combining the raw registers of two blocks gives the raw register of
their concatenation. -/
def Obligations.CombineRawIsConcatenation : Prop :=
  (∀ (d : Desc) (rA rB n : Word), d.Valid → Fits d.width rA →
    combineRaw d rA n rB = zeroShift d (rA ^^^ d.ninit) n ^^^ rB ∧
    combineRaw d rA n rB = zeroShift d rA n ^^^ zeroShift d d.ninit n ^^^ rB) ∧
  (∀ (d : Desc) (a b : List Byte), d.Valid → b.length < 2 ^ 64 →
    combineRaw d (runBytes d d.tableOf d.ninit a) (BitVec.ofNat 64 b.length) (runBytes d d.tableOf d.ninit b) =
      runBytes d d.tableOf d.ninit (a ++ b))

/-- R164: the definition, and that combining the checksums of two blocks gives the checksum of their concatenation. -/
def Obligations.CombineFinIsConcatenation : Prop :=
  (∀ (d : Desc) (cA cB n : Word),
    combineFin d cA n cB = finalize d (combineRaw d (unfinalize d cA) n (unfinalize d cB))) ∧
  (∀ (d : Desc) (a b : List Byte), d.Valid → b.length < 2 ^ 64 →
    combineFin d (finalize d (runBytes d d.tableOf d.ninit a)) (BitVec.ofNat 64 b.length)
        (finalize d (runBytes d d.tableOf d.ninit b)) =
      finalize d (runBytes d d.tableOf d.ninit (a ++ b)))

/-- R176: associativity of combination, and COMBINE agrees with feeding the source's bytes to the destination. -/
def Obligations.CombinationLaws : Prop :=
  (∀ (d : Desc) (a b c : List Byte), d.Valid → b.length + c.length < 2 ^ 64 →
    let checksum (s : List Byte) : Word := finalize d (runBytes d d.tableOf d.ninit s)
    let size (s : List Byte) : Word := BitVec.ofNat 64 s.length
    combineFin d (combineFin d (checksum a) (size b) (checksum b)) (size c) (checksum c) =
      combineFin d (checksum a) (size b + size c) (combineFin d (checksum b) (size c) (checksum c))) ∧
  (∀ (s t : State) (d src : CtxIdx) (desc : Desc) (reg len : Word) (bytes : List Byte),
    desc.Valid → Fits desc.width reg → bytes.length < 2 ^ 64 →
    s.ctx d = .active desc desc.tableOf reg len →
    s.ctx src = .active desc desc.tableOf (runBytes desc desc.tableOf desc.ninit bytes)
      (BitVec.ofNat 64 bytes.length) →
    exec (.combine d src) s = .next t →
    t.ctx d = .active desc desc.tableOf (runBytes desc desc.tableOf reg bytes)
      (len + BitVec.ofNat 64 bytes.length))

/-- R149. -/
def Obligations.EmptyInputLaw : Prop :=
  ∀ (s t u : State) (d : CtxIdx) (desc : Desc) (table : Table), desc.Valid →
    (s.ctx d = .conf desc table ∨ ∃ reg len, s.ctx d = .active desc table reg len) →
    exec (.start d) s = .next t → exec (.finish d) t = .next u →
    u.err = .ok ∧ u.res = finalize desc desc.ninit ∧
    u.res = (if desc.refOut then rev desc.width desc.init else desc.init) ^^^ desc.xorOut

/-! ### Host programs -/

/-- R88: the pseudo-instruction `crc cD, B [, prior=C]`, run event by event from a context that holds a descriptor, in
CONF or already ACTIVE (R107, R109), ends with the checksum in RES and as the reply to its read, and with |B| bytes
counted. The lists of events and replies are the model's (logs 1 and 4). -/
def Obligations.CrcProgramReturnsTheChecksum : Prop :=
  ∀ (s : State) (d : CtxIdx) (desc : Desc) (bytes : List Byte) (prior : Option Word) (master : Nat),
    desc.Valid → s.resetAsserted = false → d.val < s.cfg.nctx →
    (s.ctx d = .conf desc desc.tableOf ∨ ∃ reg len, s.ctx d = .active desc desc.tableOf reg len) →
    let events := (crcStmts d bytes prior).map (Stmt.event s.cfg master)
    let seed := match prior with
      | none => desc.ninit
      | some c => unfinalize desc (c &&& BitVec.ofNat 64 (2 ^ desc.width - 1))
    let checksum := finalize desc (runBytes desc desc.tableOf seed bytes)
    ∃ t, steps events.length { s with pending := events } = .next t ∧
      t.pending = [] ∧ t.err = .ok ∧ t.res = checksum ∧ t.replies = ⟨master, checksum⟩ :: s.replies ∧
      t.ctx d = .active desc desc.tableOf (runBytes desc desc.tableOf seed bytes)
        (BitVec.ofNat 64 bytes.length)

/-- R148: the digest bytes and the hexadecimal digits of a checksum, most significant first, are its digits. -/
def Obligations.DigestsSpellTheChecksum : Prop :=
  ∀ (w : Nat) (v : Word), 1 ≤ w → w ≤ 64 → Fits w v →
    (digestBytes w v).length = (w + 7) / 8 ∧
    (digestBytes w v).foldl (fun n b => 256 * n + b.toNat) 0 = v.toNat ∧
    (hexDigest w v).length = (w + 3) / 4 ∧
    ((hexDigest w v).map fun c => if c ≤ '9' then c.toNat - 48 else c.toNat - 87).foldl
      (fun n x => 16 * n + x) 0 = v.toNat ∧
    ∀ c ∈ hexDigest w v, ('0' ≤ c ∧ c ≤ '9') ∨ ('a' ≤ c ∧ c ≤ 'f')
end

