-- ==== Sys2Proof/Laws/Bits.lean ====
section
/-! SUPPORT. The bits of a masked, reversed or W-bit word, and the linearity of the word operations over XOR. -/

namespace Sys2Proof.Machine

/-! ### Masks (R7) -/

theorem getLsbD_maskOf (w i : Nat) : (maskOf w).getLsbD i = (decide (i < 64) && decide (i < w)) := by
  by_cases hw : w < 64
  · have h : maskOf w = BitVec.ofNat 64 (2 ^ w - 1) := by
      apply BitVec.eq_of_toNat_eq
      have h2 : 2 ^ w < 2 ^ 64 := Nat.pow_lt_pow_right (by omega) hw
      have h1 : 0 < 2 ^ w := Nat.two_pow_pos w
      have h3 : (1#64).toNat <<< w % 2 ^ 64 = 2 ^ w := by
        rw [Nat.shiftLeft_eq, Nat.mod_eq_of_lt (by simpa using h2)]
        simp
      simp only [maskOf, BitVec.toNat_sub, BitVec.toNat_shiftLeft, BitVec.toNat_ofNat, BitVec.ofNat_eq_ofNat] at *
      omega
    rw [h, BitVec.getLsbD_ofNat, Nat.testBit_two_pow_sub_one]
  · have h0 : (1 : Word) <<< w = 0 := by
      apply BitVec.eq_of_toNat_eq
      have : 2 ^ w = 2 ^ 64 * 2 ^ (w - 64) := by rw [← pow_add]; congr 1; omega
      simp [Nat.shiftLeft_eq, this]
    have h : maskOf w = BitVec.allOnes 64 := by
      rw [maskOf, h0]
      rfl
    rw [h, BitVec.getLsbD_allOnes]
    by_cases hi : i < 64
    · simp [hi, show i < w by omega]
    · simp [hi]

@[simp] theorem getLsbD_truncTo (w : Nat) (v : Word) (i : Nat) :
    (truncTo w v).getLsbD i = (decide (i < w) && v.getLsbD i) := by
  by_cases hi : i < 64
  · rw [truncTo, BitVec.getLsbD_and, getLsbD_maskOf, Bool.and_comm]
    simp only [hi, decide_true, Bool.true_and]
  · rw [BitVec.getLsbD_of_ge _ _ (by omega : 64 ≤ i), BitVec.getLsbD_of_ge _ _ (by omega : 64 ≤ i), Bool.and_false]

@[simp] theorem getElem_truncTo (w : Nat) (v : Word) (i : Nat) (h : i < 64) :
    (truncTo w v)[i] = (decide (i < w) && v[i]) := by
  rw [← BitVec.getLsbD_eq_getElem, ← BitVec.getLsbD_eq_getElem, getLsbD_truncTo]

/-! ### Values of W bits -/

theorem fits_iff {w : Nat} {v : Word} : Fits w v ↔ ∀ i, w ≤ i → v.getLsbD i = false := by
  constructor
  · intro h i hi
    exact Nat.testBit_lt_two_pow (Nat.lt_of_lt_of_le h (Nat.pow_le_pow_right (by omega) hi))
  · intro h
    exact Nat.lt_pow_two_of_testBit _ h

theorem fits_truncTo (w : Nat) (v : Word) : Fits w (truncTo w v) := by
  rw [fits_iff]
  intro i hi
  simp only [getLsbD_truncTo, Bool.and_eq_false_imp, decide_eq_true_eq]
  omega

theorem fits_zero (w : Nat) : Fits w 0 := by
  rw [fits_iff]; simp

theorem fits_xor {w : Nat} {u v : Word} (hu : Fits w u) (hv : Fits w v) : Fits w (u ^^^ v) := by
  rw [fits_iff] at *
  intro i hi
  simp [hu i hi, hv i hi]

theorem truncTo_of_fits {w : Nat} {v : Word} (h : Fits w v) : truncTo w v = v := by
  rw [fits_iff] at h
  apply BitVec.eq_of_getLsbD_eq
  intro i _
  by_cases hi : i < w
  · simp [hi]
  · simp [hi, h i (by omega)]

theorem fits_shiftRight {w : Nat} {v : Word} (n : Nat) (h : Fits w v) : Fits w (v >>> n) := by
  rw [fits_iff] at *
  intro i hi
  simpa using h (n + i) (by omega)

/-- The values of at most W bits below an explicit mask, as the rules write it. -/
theorem truncTo_eq_and (w : Nat) (v : Word) : truncTo w v = v &&& BitVec.ofNat 64 (2 ^ w - 1) := by
  apply BitVec.eq_of_getLsbD_eq
  intro i hi
  rw [getLsbD_truncTo, BitVec.getLsbD_and, BitVec.getLsbD_ofNat, Nat.testBit_two_pow_sub_one, Bool.and_comm]
  simp only [hi, decide_true, Bool.true_and]

/-! ### Bit reversal (R8) -/

theorem getLsbD_rev {n : Nat} (hn : n ≤ 64) (v : Word) (i : Nat) :
    (rev n v).getLsbD i = (decide (i < n) && v.getLsbD (n - 1 - i)) := by
  induction n generalizing v i with
  | zero => simp [rev]
  | succ n ih =>
    simp only [rev, BitVec.getLsbD_or, ih (by omega), BitVec.getLsbD_ushiftRight, BitVec.getLsbD_shiftLeft,
      BitVec.getLsbD_and]
    by_cases h1 : i < n
    · have h2 : 1 + (n - 1 - i) = n - i := by omega
      simp [h1, h2, show i < n + 1 by omega]
    · by_cases h2 : i = n
      · subst h2
        simp [show i < 64 by omega]
      · have h3 : ¬ i < n + 1 := by omega
        have h4 : (1#64).getLsbD (i - n) = false := by
          rw [BitVec.getLsbD_one]
          simp
          omega
        simp [h1, h3, h4]

theorem fits_rev {n : Nat} (hn : n ≤ 64) (v : Word) : Fits n (rev n v) := by
  rw [fits_iff]
  intro i hi
  rw [getLsbD_rev hn]
  simp
  omega

theorem rev_rev {n : Nat} (hn : n ≤ 64) {v : Word} (h : Fits n v) : rev n (rev n v) = v := by
  rw [fits_iff] at h
  apply BitVec.eq_of_getLsbD_eq
  intro i _
  rw [getLsbD_rev hn, getLsbD_rev hn]
  by_cases hi : i < n
  · have h1 : n - 1 - i < n := by omega
    have h2 : n - 1 - (n - 1 - i) = i := by omega
    simp [hi, h1, h2]
  · simp [hi, h i (by omega)]

/-! ### Linearity over XOR -/

theorem truncTo_xor (w : Nat) (u v : Word) : truncTo w (u ^^^ v) = truncTo w u ^^^ truncTo w v := by
  apply BitVec.eq_of_getLsbD_eq
  intro i _
  simp [Bool.and_xor_distrib_left]

@[simp] theorem truncTo_zero (w : Nat) : truncTo w 0#64 = 0#64 := by
  simp [truncTo]

theorem rev_xor {n : Nat} (hn : n ≤ 64) (u v : Word) : rev n (u ^^^ v) = rev n u ^^^ rev n v := by
  apply BitVec.eq_of_getLsbD_eq
  intro i _
  simp [getLsbD_rev hn, Bool.and_xor_distrib_left]

@[simp] theorem rev_zero (n : Nat) : rev n 0#64 = 0#64 := by
  induction n with
  | zero => rfl
  | succ n ih => simpa [rev] using ih

theorem xor_left_comm (u v x : Word) : u ^^^ (v ^^^ x) = v ^^^ (u ^^^ x) := by
  rw [← BitVec.xor_assoc, BitVec.xor_comm u v, BitVec.xor_assoc]

@[simp] theorem xor_self_left (u v : Word) : u ^^^ (u ^^^ v) = v := by
  rw [← BitVec.xor_assoc, BitVec.xor_self, BitVec.zero_xor]

theorem xor_shiftLeft (u v : Word) (n : Nat) : (u ^^^ v) <<< n = u <<< n ^^^ v <<< n := by
  apply BitVec.eq_of_getLsbD_eq
  intro i hi
  by_cases h : i < n <;> simp [h, hi]

theorem xor_shiftRight (u v : Word) (n : Nat) : (u ^^^ v) >>> n = u >>> n ^^^ v >>> n := by
  apply BitVec.eq_of_getLsbD_eq
  intro i _
  simp

end Sys2Proof.Machine
end

