-- ==== Sys2Proof/Laws/State.lean ====
section
/-! SUPPORT. What each update of State does to each field, so that no proof unfolds a record update. -/

namespace Sys2Proof.Machine

/-! ### setCtx -/

@[simp] theorem State.setCtx_cfg (s : State) (c : CtxIdx) (x : Context) : (s.setCtx c x).cfg = s.cfg := rfl
@[simp] theorem State.setCtx_arg0 (s : State) (c : CtxIdx) (x : Context) : (s.setCtx c x).arg0 = s.arg0 := rfl
@[simp] theorem State.setCtx_arg1 (s : State) (c : CtxIdx) (x : Context) : (s.setCtx c x).arg1 = s.arg1 := rfl
@[simp] theorem State.setCtx_arg2 (s : State) (c : CtxIdx) (x : Context) : (s.setCtx c x).arg2 = s.arg2 := rfl
@[simp] theorem State.setCtx_res (s : State) (c : CtxIdx) (x : Context) : (s.setCtx c x).res = s.res := rfl
@[simp] theorem State.setCtx_err (s : State) (c : CtxIdx) (x : Context) : (s.setCtx c x).err = s.err := rfl
@[simp] theorem State.setCtx_sticky (s : State) (c : CtxIdx) (x : Context) : (s.setCtx c x).sticky = s.sticky := rfl
@[simp] theorem State.setCtx_ctxs (s : State) (c : CtxIdx) (x : Context) : (s.setCtx c x).ctxs = s.ctxs.set c.val x := rfl
@[simp] theorem State.setCtx_resetAsserted (s : State) (c : CtxIdx) (x : Context) : (s.setCtx c x).resetAsserted = s.resetAsserted := rfl
@[simp] theorem State.setCtx_pending (s : State) (c : CtxIdx) (x : Context) : (s.setCtx c x).pending = s.pending := rfl
@[simp] theorem State.setCtx_replies (s : State) (c : CtxIdx) (x : Context) : (s.setCtx c x).replies = s.replies := rfl

/-! ### setRes -/

@[simp] theorem State.setRes_cfg (s : State) (v : Word) : (s.setRes v).cfg = s.cfg := rfl
@[simp] theorem State.setRes_arg0 (s : State) (v : Word) : (s.setRes v).arg0 = s.arg0 := rfl
@[simp] theorem State.setRes_arg1 (s : State) (v : Word) : (s.setRes v).arg1 = s.arg1 := rfl
@[simp] theorem State.setRes_arg2 (s : State) (v : Word) : (s.setRes v).arg2 = s.arg2 := rfl
@[simp] theorem State.setRes_res (s : State) (v : Word) : (s.setRes v).res = v := rfl
@[simp] theorem State.setRes_err (s : State) (v : Word) : (s.setRes v).err = s.err := rfl
@[simp] theorem State.setRes_sticky (s : State) (v : Word) : (s.setRes v).sticky = s.sticky := rfl
@[simp] theorem State.setRes_ctxs (s : State) (v : Word) : (s.setRes v).ctxs = s.ctxs := rfl
@[simp] theorem State.setRes_resetAsserted (s : State) (v : Word) : (s.setRes v).resetAsserted = s.resetAsserted := rfl
@[simp] theorem State.setRes_pending (s : State) (v : Word) : (s.setRes v).pending = s.pending := rfl
@[simp] theorem State.setRes_replies (s : State) (v : Word) : (s.setRes v).replies = s.replies := rfl

/-! ### clearSticky -/

@[simp] theorem State.clearSticky_cfg (s : State) (v : Word) : (s.clearSticky v).cfg = s.cfg := rfl
@[simp] theorem State.clearSticky_arg0 (s : State) (v : Word) : (s.clearSticky v).arg0 = s.arg0 := rfl
@[simp] theorem State.clearSticky_arg1 (s : State) (v : Word) : (s.clearSticky v).arg1 = s.arg1 := rfl
@[simp] theorem State.clearSticky_arg2 (s : State) (v : Word) : (s.clearSticky v).arg2 = s.arg2 := rfl
@[simp] theorem State.clearSticky_res (s : State) (v : Word) : (s.clearSticky v).res = s.res := rfl
@[simp] theorem State.clearSticky_err (s : State) (v : Word) : (s.clearSticky v).err = s.err := rfl
@[simp] theorem State.clearSticky_sticky (s : State) (v : Word) : (s.clearSticky v).sticky = s.sticky &&& ~~~(v.extractLsb' 8 4) := rfl
@[simp] theorem State.clearSticky_ctxs (s : State) (v : Word) : (s.clearSticky v).ctxs = s.ctxs := rfl
@[simp] theorem State.clearSticky_resetAsserted (s : State) (v : Word) : (s.clearSticky v).resetAsserted = s.resetAsserted := rfl
@[simp] theorem State.clearSticky_pending (s : State) (v : Word) : (s.clearSticky v).pending = s.pending := rfl
@[simp] theorem State.clearSticky_replies (s : State) (v : Word) : (s.clearSticky v).replies = s.replies := rfl

/-! ### deviceReset -/

@[simp] theorem State.deviceReset_cfg (s : State) : s.deviceReset.cfg = s.cfg := rfl
@[simp] theorem State.deviceReset_arg0 (s : State) : s.deviceReset.arg0 = 0 := rfl
@[simp] theorem State.deviceReset_arg1 (s : State) : s.deviceReset.arg1 = 0 := rfl
@[simp] theorem State.deviceReset_arg2 (s : State) : s.deviceReset.arg2 = 0 := rfl
@[simp] theorem State.deviceReset_res (s : State) : s.deviceReset.res = 0 := rfl
@[simp] theorem State.deviceReset_err (s : State) : s.deviceReset.err = .ok := rfl
@[simp] theorem State.deviceReset_sticky (s : State) : s.deviceReset.sticky = 0 := rfl
@[simp] theorem State.deviceReset_ctxs (s : State) : s.deviceReset.ctxs = Vector.replicate 4 .unconf := rfl
@[simp] theorem State.deviceReset_resetAsserted (s : State) : s.deviceReset.resetAsserted = s.resetAsserted := rfl
@[simp] theorem State.deviceReset_pending (s : State) : s.deviceReset.pending = s.pending := rfl
@[simp] theorem State.deviceReset_replies (s : State) : s.deviceReset.replies = s.replies := rfl

/-! ### resetOf -/

@[simp] theorem State.resetOf_cfg (cfg : Config) : (State.resetOf cfg).cfg = cfg := rfl
@[simp] theorem State.resetOf_arg0 (cfg : Config) : (State.resetOf cfg).arg0 = 0 := rfl
@[simp] theorem State.resetOf_arg1 (cfg : Config) : (State.resetOf cfg).arg1 = 0 := rfl
@[simp] theorem State.resetOf_arg2 (cfg : Config) : (State.resetOf cfg).arg2 = 0 := rfl
@[simp] theorem State.resetOf_res (cfg : Config) : (State.resetOf cfg).res = 0 := rfl
@[simp] theorem State.resetOf_err (cfg : Config) : (State.resetOf cfg).err = .ok := rfl
@[simp] theorem State.resetOf_sticky (cfg : Config) : (State.resetOf cfg).sticky = 0 := rfl
@[simp] theorem State.resetOf_ctxs (cfg : Config) : (State.resetOf cfg).ctxs = Vector.replicate 4 .unconf := rfl
@[simp] theorem State.resetOf_resetAsserted (cfg : Config) : (State.resetOf cfg).resetAsserted = false := rfl
@[simp] theorem State.resetOf_pending (cfg : Config) : (State.resetOf cfg).pending = [] := rfl
@[simp] theorem State.resetOf_replies (cfg : Config) : (State.resetOf cfg).replies = [] := rfl

/-! ### withCommand -/

@[simp] theorem State.withCommand_cfg (s : State) (v : Word) : (s.withCommand v).cfg = s.cfg := rfl
@[simp] theorem State.withCommand_arg0 (s : State) (v : Word) : (s.withCommand v).arg0 = s.arg0 := rfl
@[simp] theorem State.withCommand_arg1 (s : State) (v : Word) : (s.withCommand v).arg1 = s.arg1 := rfl
@[simp] theorem State.withCommand_arg2 (s : State) (v : Word) : (s.withCommand v).arg2 = s.arg2 := rfl
@[simp] theorem State.withCommand_res (s : State) (v : Word) : (s.withCommand v).res = s.res := rfl
@[simp] theorem State.withCommand_err (s : State) (v : Word) : (s.withCommand v).err = s.err := rfl
@[simp] theorem State.withCommand_sticky (s : State) (v : Word) : (s.withCommand v).sticky = s.sticky := rfl
@[simp] theorem State.withCommand_ctxs (s : State) (v : Word) : (s.withCommand v).ctxs = s.ctxs := rfl
@[simp] theorem State.withCommand_resetAsserted (s : State) (v : Word) : (s.withCommand v).resetAsserted = false := rfl
@[simp] theorem State.withCommand_pending (s : State) (v : Word) : (s.withCommand v).pending = .access (commandAccess s.cfg v) :: s.pending := rfl
@[simp] theorem State.withCommand_replies (s : State) (v : Word) : (s.withCommand v).replies = s.replies := rfl

/-! ### Reading a context -/

@[simp] theorem State.ctx_setCtx_self (s : State) (c : CtxIdx) (x : Context) : (s.setCtx c x).ctx c = x := by
  simp [State.ctx, State.setCtx]

theorem State.ctx_setCtx_of_ne (s : State) {c e : CtxIdx} (x : Context) (h : e ≠ c) :
    (s.setCtx c x).ctx e = s.ctx e := by
  have : c.val ≠ e.val := fun hv => h (Fin.ext hv.symm)
  simp [State.ctx, State.setCtx, this]

theorem State.ctx_setCtx (s : State) (c e : CtxIdx) (x : Context) :
    (s.setCtx c x).ctx e = if e = c then x else s.ctx e := by
  by_cases h : e = c
  · subst h; simp
  · simp [h, State.ctx_setCtx_of_ne]

@[simp] theorem State.ctx_setRes (s : State) (v : Word) (c : CtxIdx) : (s.setRes v).ctx c = s.ctx c := rfl

@[simp] theorem State.ctx_clearSticky (s : State) (v : Word) (c : CtxIdx) : (s.clearSticky v).ctx c = s.ctx c :=
  rfl

@[simp] theorem State.ctx_deviceReset (s : State) (c : CtxIdx) : s.deviceReset.ctx c = .unconf := by
  simp [State.ctx]

@[simp] theorem State.ctx_resetOf (cfg : Config) (c : CtxIdx) : (State.resetOf cfg).ctx c = .unconf := by
  simp [State.ctx]

/-- An update of other fields leaves every context as it was. -/
theorem State.ctx_eq_of_ctxs_eq {s t : State} (h : t.ctxs = s.ctxs) (c : CtxIdx) : t.ctx c = s.ctx c := by
  simp [State.ctx, h]

end Sys2Proof.Machine
end

