-- ==== Sys2Proof/Laws/Ops.lean ====
section
/-! SUPPORT. What each shared operation can do, said once: succeeding, raising, the two state checks, decoding's outcome on
a command write, and one lemma per command that gives its whole result. -/

namespace Sys2Proof.Machine

/-! ### Ending a command -/

theorem succeed_next {s t : State} : succeed s = .next t ↔ t = { s with err := .ok } := by
  simp only [succeed, Host.Outcome.next.injEq]
  exact eq_comm

theorem raiseError_next {e : ErrCode} {s t : State} :
    raiseError e s = .next t ↔ t = { s with err := e, sticky := s.sticky ||| e.stickyBit } := by
  simp only [raiseError, Host.Outcome.next.injEq]
  exact eq_comm

/-! ### The state checks (R201) -/

theorem withVariant_unconf {c : CtxIdx} {s : State} (h : s.ctx c = .unconf) (body : Desc → Table → Result) :
    withVariant c s body = raiseError .unsupportedOperation s := by
  simp [withVariant, h]

theorem withVariant_conf {c : CtxIdx} {s : State} {d : Desc} {t : Table} (h : s.ctx c = .conf d t)
    (body : Desc → Table → Result) : withVariant c s body = body d t := by
  simp [withVariant, h]

theorem withVariant_active {c : CtxIdx} {s : State} {d : Desc} {t : Table} {reg len : Word}
    (h : s.ctx c = .active d t reg len) (body : Desc → Table → Result) :
    withVariant c s body = body d t := by
  simp [withVariant, h]

theorem withInstance_unconf {c : CtxIdx} {s : State} (h : s.ctx c = .unconf)
    (body : Desc → Table → Word → Word → Result) :
    withInstance c s body = raiseError .unsupportedOperation s := by
  simp [withInstance, h]

theorem withInstance_conf {c : CtxIdx} {s : State} {d : Desc} {t : Table} (h : s.ctx c = .conf d t)
    (body : Desc → Table → Word → Word → Result) :
    withInstance c s body = raiseError .unsupportedOperation s := by
  simp [withInstance, h]

theorem withInstance_active {c : CtxIdx} {s : State} {d : Desc} {t : Table} {reg len : Word}
    (h : s.ctx c = .active d t reg len) (body : Desc → Table → Word → Word → Result) :
    withInstance c s body = body d t reg len := by
  simp [withInstance, h]

/-- Everything `withVariant` can do: raise on an UNCONF context, or run the body on the context's own
descriptor and table. -/
theorem withVariant_cases (c : CtxIdx) (s : State) (body : Desc → Table → Result) :
    (s.ctx c = .unconf ∧ withVariant c s body = raiseError .unsupportedOperation s) ∨
      ∃ d t, (s.ctx c = .conf d t ∨ ∃ reg len, s.ctx c = .active d t reg len) ∧
        withVariant c s body = body d t := by
  cases h : s.ctx c with
  | unconf => exact .inl ⟨rfl, withVariant_unconf h body⟩
  | conf d t => exact .inr ⟨d, t, .inl rfl, withVariant_conf h body⟩
  | active d t reg len => exact .inr ⟨d, t, .inr ⟨reg, len, rfl⟩, withVariant_active h body⟩

/-- Everything `withInstance` can do: raise on a context that is not ACTIVE, or run the body on the context's
own fields. -/
theorem withInstance_cases (c : CtxIdx) (s : State) (body : Desc → Table → Word → Word → Result) :
    ((s.ctx c).phase ≠ .active ∧ withInstance c s body = raiseError .unsupportedOperation s) ∨
      ∃ d t reg len, s.ctx c = .active d t reg len ∧ withInstance c s body = body d t reg len := by
  cases h : s.ctx c with
  | unconf => exact .inl ⟨by simp [Context.phase], withInstance_unconf h body⟩
  | conf d t => exact .inl ⟨by simp [Context.phase], withInstance_conf h body⟩
  | active d t reg len => exact .inr ⟨d, t, reg, len, rfl, withInstance_active h body⟩

/-! ### What a command can do -/

/-- Everything a command can do to the state: end with an error, load the one context that `loads` names, write
RES, change nothing but ERR (NOP), or reset (SRST). -/
inductive Effect (i : Instr) (s : State) : Result → Prop where
  | raised (e : ErrCode) (h : e ≠ .ok) : Effect i s (raiseError e s)
  | loaded (d : CtxIdx) (x : Context) (h : i.loads = some (d, x.phase)) : Effect i s (succeed (s.setCtx d x))
  | answered (v : Word) (h : i.answers = true) : Effect i s (succeed (s.setRes v))
  | nothing (h : i = .nop) : Effect i s (succeed s)
  | reset (h : i = .srst) : Effect i s (succeed s.deviceReset)

/-- A variant-level command that only loads or answers. -/
theorem effect_withVariant {i : Instr} {c : CtxIdx} {s : State} {body : Desc → Table → Result}
    (h : ∀ d t, Effect i s (body d t)) : Effect i s (withVariant c s body) := by
  obtain ⟨-, e⟩ | ⟨d, t, -, e⟩ := withVariant_cases c s body <;> rw [e]
  · exact .raised _ (by decide)
  · exact h d t

/-- An instance-level command whose body only loads, answers or raises. -/
theorem effect_withInstance {i : Instr} {c : CtxIdx} {s : State}
    {body : Desc → Table → Word → Word → Result} (h : ∀ d t reg len, Effect i s (body d t reg len)) :
    Effect i s (withInstance c s body) := by
  obtain ⟨-, e⟩ | ⟨d, t, reg, len, -, e⟩ := withInstance_cases c s body <;> rw [e]
  · exact .raised _ (by decide)
  · exact h d t reg len

theorem exec_effect (i : Instr) (s : State) : Effect i s (exec i s) := by
  cases i with
  | nop => exact .nothing rfl
  | srst => exact .reset rfl
  | config d w ri ro =>
    simp only [exec, execConfig]
    split
    · exact .raised _ (by decide)
    · exact .loaded _ _ rfl
  | start d => exact effect_withVariant fun _ _ => .loaded _ _ rfl
  | resume d => exact effect_withVariant fun _ _ => .loaded _ _ rfl
  | updb d c => exact effect_withInstance fun _ _ _ _ => .loaded _ _ rfl
  | updd d n => exact effect_withInstance fun _ _ _ _ => .loaded _ _ rfl
  | finish d => exact effect_withInstance fun _ _ _ _ => .answered _ rfl
  | combine d src =>
    refine effect_withInstance fun _ _ _ _ => effect_withInstance fun _ _ _ _ => ?_
    split
    · exact .loaded _ _ rfl
    · exact .raised _ (by decide)
  | combv d => exact effect_withInstance fun _ _ _ _ => .loaded _ _ rfl
  | combf d => exact effect_withVariant fun _ _ => .answered _ rfl
  | shift d => exact effect_withVariant fun _ _ => .answered _ rfl
  | compat d src => exact .answered _ rfl
  | tblrd d k => exact effect_withVariant fun _ _ => .answered _ rfl
  | query d q => exact effect_withInstance fun _ _ _ _ => .answered _ rfl

/-- The same, read off a next state: the five shapes that it can have. -/
theorem exec_next {i : Instr} {s t : State} (h : exec i s = .next t) :
    (∃ e, e ≠ .ok ∧ t = { s with err := e, sticky := s.sticky ||| e.stickyBit }) ∨
    (∃ d x, i.loads = some (d, x.phase) ∧ t = { s.setCtx d x with err := .ok }) ∨
    (∃ v, i.answers = true ∧ t = { s.setRes v with err := .ok }) ∨
    (i = .nop ∧ t = { s with err := .ok }) ∨ (i = .srst ∧ t = { s.deviceReset with err := .ok }) := by
  have he := exec_effect i s
  rw [h] at he
  generalize hr : Host.Outcome.next t = r at he
  cases he with
  | raised e h => exact .inl ⟨e, h, raiseError_next.mp hr.symm⟩
  | loaded d x h => exact .inr (.inl ⟨d, x, h, succeed_next.mp hr.symm⟩)
  | answered v h => exact .inr (.inr (.inl ⟨v, h, succeed_next.mp hr.symm⟩))
  | nothing h => exact .inr (.inr (.inr (.inl ⟨h, succeed_next.mp hr.symm⟩)))
  | reset h => exact .inr (.inr (.inr (.inr ⟨h, succeed_next.mp hr.symm⟩)))

/-- A command never stops: what it ends with is a next state. -/
theorem effect_next {i : Instr} {s : State} {r : Result} (h : Effect i s r) : ∃ t, r = .next t := by
  cases h <;> exact ⟨_, rfl⟩

end Sys2Proof.Machine
end

