-- ==== Sys2Proof/Laws/Bus.lean ====
section
/-! SUPPORT. What a command write, an access, a bus event and a step can do, said once each; and STATUS bit by bit. -/

namespace Sys2Proof.Machine

/-- A CMD write that the device performs is a decoded command, or an illegal one that raises IllegalCommand. -/
theorem commandWrite_next {v : Word} {s t : State} (h : commandWrite v s = .next t) :
    (∃ i, decode s.cfg.nctx v = .ok i ∧ exec i s = .next t) ∨
      ∃ x, decode s.cfg.nctx v = .error x ∧
        t = { s with err := .illegalCommand, sticky := s.sticky ||| ErrCode.illegalCommand.stickyBit } := by
  unfold commandWrite at h
  split at h
  · next i hi => exact .inl ⟨i, hi, h⟩
  · next x hx => exact .inr ⟨x, hx, raiseError_next.mp h⟩

/-- An access that the device performs came while reset was released, reached a register of the window, and read
it or wrote it. -/
theorem performAccess_next {a : Access} {s t : State} (h : performAccess a s = .next t) :
    s.resetAsserted = false ∧ ∃ r, a.target s.cfg = some r ∧
      ((a.op = .read ∧ t = { s with replies := ⟨a.master, s.busRead r⟩ :: s.replies }) ∨
        ∃ v, a.op = .write v ∧ busWrite r v s = .next t) := by
  obtain ⟨m, addr, bytes, op⟩ := a
  cases hr : s.resetAsserted with
  | true => simp [performAccess, hr] at h
  | false =>
    cases ht : Access.target ⟨m, addr, bytes, op⟩ s.cfg with
    | none =>
      simp only [performAccess, hr, ht, Bool.false_eq_true, if_false] at h
      split at h <;> cases h
    | some r =>
      refine ⟨rfl, r, rfl, ?_⟩
      cases op with
      | read =>
        simp only [performAccess, hr, ht, Bool.false_eq_true, if_false, Host.Outcome.next.injEq] at h
        exact .inl ⟨rfl, h.symm⟩
      | write v =>
        simp only [performAccess, hr, ht, Bool.false_eq_true, if_false] at h
        exact .inr ⟨v, rfl, h⟩

/-- A step with nothing pending changes nothing; else it performs the oldest event. -/
theorem step_next {s t : State} (h : step s = .next t) :
    (s.pending = [] ∧ t = s) ∨
      ∃ e rest, s.pending = e :: rest ∧ performEvent e { s with pending := rest } = .next t := by
  unfold step performPending at h
  split at h
  · next hp => exact .inl ⟨hp, by simpa [eq_comm] using h⟩
  · next e rest hp => exact .inr ⟨e, rest, hp, h⟩

/-- An admitted address reaches the register whose offset it has. -/
theorem Access.target_eq_some {a : Access} {cfg : Config} {r : WinReg} :
    a.target cfg = some r ↔ a.bytes = 8 ∧ a.addr = cfg.crcBase + r.offset := by
  have ho : ∀ off, WinReg.ofOffset off = some r ↔ off = r.offset := by
    intro off
    constructor
    · intro h
      unfold WinReg.ofOffset at h
      split at h <;> cases h <;> rfl
    · rintro rfl
      cases r <;> rfl
  unfold Access.target
  split
  · next h =>
    rw [ho]
    omega
  · next h =>
    simp only [reduceCtorEq, false_iff]
    rintro ⟨h8, ha⟩
    exact h ⟨h8, by omega⟩

/-- CS_c bit by bit (R25). -/
theorem State.csField_getLsbD (s : State) (c : CtxIdx) (i : Nat) : (s.csField c).getLsbD i =
    (decide (c.val < s.cfg.nctx) && decide (16 + 2 * c.val ≤ i) &&
      (s.ctx c).phase.code.getLsbD (i - (16 + 2 * c.val))) := by
  have hc := c.isLt
  unfold State.csField
  split
  · next h =>
    rw [BitVec.getLsbD_shiftLeft, BitVec.getLsbD_setWidth]
    by_cases h64 : i < 64
    · by_cases hi : i < 16 + 2 * c.val
      · simp only [hi, Nat.not_le.mpr hi, decide_true, decide_false, Bool.not_true, Bool.and_false, Bool.false_and]
      · have : i - (16 + 2 * c.val) < 64 := by omega
        simp only [h, h64, hi, this, Nat.not_lt.mp hi, decide_true, decide_false, Bool.not_false, Bool.true_and]
        rfl
    · have h2 : 2 ≤ i - (16 + 2 * c.val) := by omega
      simp only [h64, BitVec.getLsbD_of_ge _ _ h2, decide_false, Bool.false_and, Bool.and_false]
  · next h => simp only [h, decide_false, Bool.false_and, BitVec.ofNat_eq_ofNat, BitVec.getLsbD_zero]

/-- STATUS bit by bit (R25). -/
theorem State.statusWord_getLsbD (s : State) (i : Nat) : s.statusWord.getLsbD i =
    (s.err.code.getLsbD i || (decide (8 ≤ i) && s.sticky.getLsbD (i - 8)) || (s.csField 0).getLsbD i ||
      (s.csField 1).getLsbD i || (s.csField 2).getLsbD i || (s.csField 3).getLsbD i) := by
  have hlow : (s.err.code.setWidth 64).getLsbD i = s.err.code.getLsbD i := by
    rw [BitVec.getLsbD_setWidth]
    by_cases h : i < 64
    · simp only [h, decide_true, Bool.true_and]
    · simp only [h, BitVec.getLsbD_of_ge _ _ (by omega : 4 ≤ i), decide_false, Bool.false_and]
  have hsticky : (s.sticky.setWidth 64 <<< 8).getLsbD i = (decide (8 ≤ i) && s.sticky.getLsbD (i - 8)) := by
    rw [BitVec.getLsbD_shiftLeft, BitVec.getLsbD_setWidth]
    by_cases h : i < 64
    · by_cases h8 : i < 8
      · simp only [h8, Nat.not_le.mpr h8, decide_true, decide_false, Bool.not_true, Bool.and_false, Bool.false_and]
      · simp only [h, h8, Nat.not_lt.mp h8, (by omega : i - 8 < 64), decide_true, decide_false, Bool.not_false,
          Bool.true_and]
    · simp only [h, BitVec.getLsbD_of_ge _ _ (by omega : 4 ≤ i - 8), decide_false, Bool.false_and, Bool.and_false]
  simp only [State.statusWord, BitVec.getLsbD_or, hlow, hsticky]

end Sys2Proof.Machine
end

