-- ==== Sys2Proof/Laws/Division.lean ====
section
/-! SUPPORT. Bit-serial division (R101 to R104): each step is linear over XOR in the pair (register, input bit), keeps a
register of W bits at W bits, and feeds back only the bits that leave the register. -/

namespace Sys2Proof.Machine

/-! ### Linearity -/

theorem stepN_xor (w : Nat) (p r s : Word) (b c : Bool) :
    stepN w p (r ^^^ s) (b ^^ c) = stepN w p r b ^^^ stepN w p s c := by
  simp only [stepN, xor_shiftLeft, truncTo_xor, BitVec.getLsbD_xor]
  cases r.getLsbD (w - 1) <;> cases s.getLsbD (w - 1) <;> cases b <;> cases c <;>
    simp [BitVec.xor_assoc, BitVec.xor_comm, xor_left_comm]

theorem stepR_xor (rp r s : Word) (b c : Bool) :
    stepR rp (r ^^^ s) (b ^^ c) = stepR rp r b ^^^ stepR rp s c := by
  simp only [stepR, xor_shiftRight, BitVec.getLsbD_xor]
  cases r.getLsbD 0 <;> cases s.getLsbD 0 <;> cases b <;> cases c <;>
    simp [BitVec.xor_assoc, BitVec.xor_comm, xor_left_comm]

theorem stepBit_xor (w : Nat) (p : Word) (ri : Bool) (r s : Word) (b c : Bool) :
    stepBit w p ri (r ^^^ s) (b ^^ c) = stepBit w p ri r b ^^^ stepBit w p ri s c := by
  cases ri
  · exact stepN_xor w p r s b c
  · exact stepR_xor (rev w p) r s b c

theorem byteN_xor (w : Nat) (p r s : Word) (c e : Byte) :
    byteN w p (r ^^^ s) (c ^^^ e) = byteN w p r c ^^^ byteN w p s e := by
  simp only [byteN, List.foldl_cons, List.foldl_nil, BitVec.getLsbD_xor, stepN_xor]

theorem byteR_xor (rp r s : Word) (c e : Byte) :
    byteR rp (r ^^^ s) (c ^^^ e) = byteR rp r c ^^^ byteR rp s e := by
  simp only [byteR, List.foldl_cons, List.foldl_nil, BitVec.getLsbD_xor, stepR_xor]

theorem byteStep_xor (w : Nat) (p : Word) (ri : Bool) (r s : Word) (c e : Byte) :
    byteStep w p ri (r ^^^ s) (c ^^^ e) = byteStep w p ri r c ^^^ byteStep w p ri s e := by
  cases ri
  · exact byteN_xor w p r s c e
  · exact byteR_xor (rev w p) r s c e

@[simp] theorem stepBit_zero (w : Nat) (p : Word) (ri : Bool) : stepBit w p ri 0#64 false = 0#64 := by
  cases ri <;> simp [stepBit, stepN, stepR]

@[simp] theorem byteStep_zero (w : Nat) (p : Word) (ri : Bool) : byteStep w p ri 0#64 0#8 = 0#64 := by
  have h := byteStep_xor w p ri 0 0 0 0
  simpa using h

/-! ### W bits stay W bits -/

theorem fits_stepN {w : Nat} {p r : Word} (hp : Fits w p) (b : Bool) : Fits w (stepN w p r b) := by
  simp only [stepN]
  split
  · exact fits_xor (fits_truncTo _ _) hp
  · exact fits_truncTo _ _

theorem fits_stepR {w : Nat} {rp r : Word} (hp : Fits w rp) (hr : Fits w r) (b : Bool) :
    Fits w (stepR rp r b) := by
  simp only [stepR]
  split
  · exact fits_xor (fits_shiftRight _ hr) hp
  · exact fits_shiftRight _ hr

theorem fits_stepBit {w : Nat} {p r : Word} (hw : w ≤ 64) (ri : Bool) (hp : Fits w p) (hr : Fits w r) (b : Bool) :
    Fits w (stepBit w p ri r b) := by
  cases ri
  · exact fits_stepN hp b
  · exact fits_stepR (fits_rev hw p) hr b

theorem fits_byteStep {w : Nat} {p r : Word} (hw : w ≤ 64) (ri : Bool) (hp : Fits w p) (hr : Fits w r) (c : Byte) :
    Fits w (byteStep w p ri r c) := by
  cases ri
  · simp only [byteStep, byteN, List.foldl_cons, List.foldl_nil]
    exact fits_stepN hp _
  · have h := fits_rev hw p
    simp only [byteStep, byteR, List.foldl_cons, List.foldl_nil]
    exact fits_stepR h (fits_stepR h (fits_stepR h (fits_stepR h (fits_stepR h (fits_stepR h (fits_stepR h
      (fits_stepR h hr _) _) _) _) _) _) _) _

/-! ### Zero bits -/

/-- A byte of zeros is eight zero bits. -/
theorem byteStep_zeroByte (w : Nat) (p : Word) (ri : Bool) (r : Word) :
    byteStep w p ri r 0 = (fun r => stepBit w p ri r false)^[8] r := by
  cases ri <;> rfl

/-- The zero bits shift r out at the top, and what leaves is fed back as if it were input to an empty register. -/
theorem foldl_stepN_zeros {w : Nat} (hw : w ≤ 64) (p r : Word) (m : Nat) (hm : m ≤ w) (hr : Fits w r) :
    (List.replicate m false).foldl (stepN w p) r =
      ((List.range m).map fun i => r.getLsbD (w - 1 - i)).foldl (stepN w p) 0 ^^^ truncTo w (r <<< m) := by
  induction m with
  | zero => simp [truncTo_of_fits hr]
  | succ m ih =>
    have h1 : (truncTo w (r <<< m)).getLsbD (w - 1) = r.getLsbD (w - 1 - m) := by
      rw [getLsbD_truncTo, BitVec.getLsbD_shiftLeft]
      simp only [show w - 1 < w by omega, show w - 1 < 64 by omega, show ¬ w - 1 < m by omega, decide_true,
        decide_false, Bool.not_false, Bool.true_and]
    have h2 : stepN w p (truncTo w (r <<< m)) (r.getLsbD (w - 1 - m)) = truncTo w (r <<< (m + 1)) := by
      simp only [stepN, h1, Bool.xor_self, Bool.false_eq_true, if_false]
      apply BitVec.eq_of_getLsbD_eq
      intro i hi
      simp only [getLsbD_truncTo, BitVec.getLsbD_shiftLeft, hi, decide_true, Bool.true_and]
      by_cases hi1 : i < 1
      · simp [hi1, show i < m + 1 by omega]
      · by_cases hiw : i < w
        · have : (i - 1 < m) ↔ (i < m + 1) := by omega
          have h3 : i - 1 - m = i - (m + 1) := by omega
          simp [hi1, this, h3, show i - 1 < w by omega, show i - 1 < 64 by omega, hiw]
        · simp [hiw]
    rw [List.replicate_succ', List.foldl_append, ih (by omega), List.range_succ, List.map_append,
      List.foldl_append]
    simp only [List.foldl_cons, List.foldl_nil, List.map_cons, List.map_nil]
    rw [← h2, ← stepN_xor, Bool.xor_self]

/-- The mirrored statement: r is shifted out at the bottom. -/
theorem foldl_stepR_zeros (rp r : Word) (m : Nat) :
    (List.replicate m false).foldl (stepR rp) r =
      ((List.range m).map fun i => r.getLsbD i).foldl (stepR rp) 0 ^^^ (r >>> m) := by
  induction m with
  | zero => simp
  | succ m ih =>
    have h2 : stepR rp (r >>> m) (r.getLsbD m) = r >>> (m + 1) := by
      simp [stepR, BitVec.shiftRight_add]
    rw [List.replicate_succ', List.foldl_append, ih, List.range_succ, List.map_append, List.foldl_append]
    simp only [List.foldl_cons, List.foldl_nil, List.map_cons, List.map_nil]
    rw [← h2, ← stepR_xor, Bool.xor_self]

end Sys2Proof.Machine
end

