-- ==== Sys2Proof/Laws/Encoding.lean ====
section
/-! SUPPORT. The fields of a command word (R80, R86): each field of an assembled word is what was put there, and a word whose
reserved bits are zero is the word of its fields. -/

namespace Sys2Proof

/-- Bit i of a command word, field by field (R80). -/
theorem getLsbD_commandWord (op : Byte) (d s : CtxIdx) (ri ro : Bool) (imm : Byte) (i : Nat) :
    (commandWord op d s ri ro imm).getLsbD i =
      if i < 8 then op.getLsbD i
      else if i < 10 then d.val.testBit (i - 8)
      else if i < 12 then s.val.testBit (i - 10)
      else if i = 12 then ri
      else if i = 13 then ro
      else if i < 16 then false
      else if i < 24 then imm.getLsbD (i - 16)
      else false := by
  by_cases hi : i < 64
  · have hop : ∀ j, 8 ≤ j → op.getLsbD j = false := fun j hj => BitVec.getLsbD_of_ge _ _ hj
    have himm : ∀ j, 8 ≤ j → imm.getLsbD j = false := fun j hj => BitVec.getLsbD_of_ge _ _ hj
    have hd : ∀ j, 2 ≤ j → d.val.testBit j = false := fun j hj =>
      Nat.testBit_lt_two_pow (Nat.lt_of_lt_of_le d.isLt (Nat.pow_le_pow_right (by omega : 0 < 2) hj))
    have hs : ∀ j, 2 ≤ j → s.val.testBit j = false := fun j hj =>
      Nat.testBit_lt_two_pow (Nat.lt_of_lt_of_le s.isLt (Nat.pow_le_pow_right (by omega : 0 < 2) hj))
    simp only [commandWord, BitVec.getLsbD_or, BitVec.getLsbD_shiftLeft, BitVec.getLsbD_setWidth,
      BitVec.getLsbD_ofNat, BitVec.getLsbD_ofBool, hi, decide_true, Bool.true_and]
    split_ifs with h8 h10 h12 h12' h13 h16 h24
    · simp [show i < 16 by omega, show i < 13 by omega, show i < 12 by omega, show i < 10 by omega, h8]
    · simp [show i < 16 by omega, show i < 13 by omega, show i < 12 by omega, h10, h8, hop i (by omega),
        show i - 8 < 64 by omega]
    · simp [show i < 16 by omega, show i < 13 by omega, h12, h10, h8, hop i (by omega), hd (i - 8) (by omega),
        show i - 10 < 64 by omega]
    · subst h12'
      simp [hd 4 (by omega), hs 2 (by omega)]
    · subst h13
      simp [hd 5 (by omega), hs 3 (by omega)]
    · simp [h16, hop i (by omega), hd (i - 8) (by omega), hs (i - 10) (by omega), show i - 13 ≠ 0 by omega,
        show i - 12 ≠ 0 by omega]
    · simp [show ¬ i < 16 by omega, hop i (by omega), hd (i - 8) (by omega), hs (i - 10) (by omega),
        show i - 13 ≠ 0 by omega, show i - 12 ≠ 0 by omega, show i - 16 < 64 by omega]
    · simp [hop i (by omega), hd (i - 8) (by omega), hs (i - 10) (by omega), show i - 13 ≠ 0 by omega,
        show i - 12 ≠ 0 by omega, himm (i - 16) (by omega)]
  · rw [BitVec.getLsbD_of_ge _ _ (by omega)]
    simp [show ¬ i < 8 by omega, show ¬ i < 10 by omega, show ¬ i < 12 by omega, show i ≠ 12 by omega,
      show i ≠ 13 by omega, show ¬ i < 16 by omega, show ¬ i < 24 by omega]

/-! ### The fields of an assembled word -/

section Fields

variable (op : Byte) (d s : CtxIdx) (ri ro : Bool) (imm : Byte)

@[simp] theorem fieldOp_commandWord : fieldOp (commandWord op d s ri ro imm) = op := by
  apply BitVec.eq_of_getLsbD_eq
  intro i hi
  rw [fieldOp, BitVec.getLsbD_extractLsb', getLsbD_commandWord]
  simp [hi]

@[simp] theorem fieldD_commandWord : fieldD (commandWord op d s ri ro imm) = d := by
  apply Fin.ext
  apply Nat.eq_of_testBit_eq
  intro i
  show ((commandWord op d s ri ro imm).extractLsb' 8 2).getLsbD i = _
  rw [BitVec.getLsbD_extractLsb', getLsbD_commandWord]
  by_cases hi : i < 2
  · simp [hi, show ¬ 8 + i < 8 by omega, show 8 + i < 10 by omega]
  · have : d.val.testBit i = false :=
      Nat.testBit_lt_two_pow (Nat.lt_of_lt_of_le d.isLt (Nat.pow_le_pow_right (by omega : 0 < 2) (by omega : 2 ≤ i)))
    simp [hi, this]

@[simp] theorem fieldS_commandWord : fieldS (commandWord op d s ri ro imm) = s := by
  apply Fin.ext
  apply Nat.eq_of_testBit_eq
  intro i
  show ((commandWord op d s ri ro imm).extractLsb' 10 2).getLsbD i = _
  rw [BitVec.getLsbD_extractLsb', getLsbD_commandWord]
  by_cases hi : i < 2
  · simp [hi, show ¬ 10 + i < 8 by omega, show ¬ 10 + i < 10 by omega, show 10 + i < 12 by omega]
  · have : s.val.testBit i = false :=
      Nat.testBit_lt_two_pow (Nat.lt_of_lt_of_le s.isLt (Nat.pow_le_pow_right (by omega : 0 < 2) (by omega : 2 ≤ i)))
    simp [hi, this]

@[simp] theorem fieldRi_commandWord : fieldRi (commandWord op d s ri ro imm) = ri := by
  simp only [fieldRi, getLsbD_commandWord]
  simp

@[simp] theorem fieldRo_commandWord : fieldRo (commandWord op d s ri ro imm) = ro := by
  simp only [fieldRo, getLsbD_commandWord]
  simp

@[simp] theorem fieldRsv0_commandWord : fieldRsv0 (commandWord op d s ri ro imm) = 0 := by
  apply BitVec.eq_of_getLsbD_eq
  intro i hi
  rw [fieldRsv0, BitVec.getLsbD_extractLsb', getLsbD_commandWord]
  simp [show ¬ 14 + i < 8 by omega, show ¬ 14 + i < 10 by omega, show ¬ 14 + i < 12 by omega,
    show 14 + i ≠ 12 by omega, show 14 + i ≠ 13 by omega, show 14 + i < 16 by omega]

@[simp] theorem fieldImm_commandWord : fieldImm (commandWord op d s ri ro imm) = imm := by
  apply BitVec.eq_of_getLsbD_eq
  intro i hi
  rw [fieldImm, BitVec.getLsbD_extractLsb', getLsbD_commandWord]
  simp [hi, show ¬ 16 + i < 8 by omega, show ¬ 16 + i < 10 by omega, show ¬ 16 + i < 12 by omega,
    show 16 + i ≠ 12 by omega, show 16 + i ≠ 13 by omega, show ¬ 16 + i < 16 by omega,
    show 16 + i < 24 by omega]

@[simp] theorem fieldRsv1_commandWord : fieldRsv1 (commandWord op d s ri ro imm) = 0 := by
  apply BitVec.eq_of_getLsbD_eq
  intro i hi
  rw [fieldRsv1, BitVec.getLsbD_extractLsb', getLsbD_commandWord]
  simp [show ¬ 24 + i < 8 by omega, show ¬ 24 + i < 10 by omega, show ¬ 24 + i < 12 by omega,
    show 24 + i ≠ 12 by omega, show 24 + i ≠ 13 by omega, show ¬ 24 + i < 16 by omega,
    show ¬ 24 + i < 24 by omega]

@[simp] theorem fieldZhi_commandWord : fieldZhi (commandWord op d s ri ro imm) = 0 := by
  apply BitVec.eq_of_getLsbD_eq
  intro i hi
  rw [fieldZhi, BitVec.getLsbD_extractLsb', getLsbD_commandWord]
  simp [show ¬ 32 + i < 8 by omega, show ¬ 32 + i < 10 by omega, show ¬ 32 + i < 12 by omega,
    show 32 + i ≠ 12 by omega, show 32 + i ≠ 13 by omega, show ¬ 32 + i < 16 by omega,
    show ¬ 32 + i < 24 by omega]

end Fields

/-! ### A word from its fields -/

/-- A bit of a field that is zero. -/
theorem getLsbD_of_field_zero {v : Word} {start len i : Nat} (h : v.extractLsb' start len = 0)
    (h1 : start ≤ i) (h2 : i < start + len) : v.getLsbD i = false := by
  have hb := congrArg (fun x => x.getLsbD (i - start)) h
  simp only [BitVec.getLsbD_extractLsb'] at hb
  have e : start + (i - start) = i := by omega
  simpa [show i - start < len by omega, e] using hb

/-- A value whose reserved bits are zero is the command word of its fields (R80). -/
theorem commandWord_of_fields {v : Word} (hz : fieldZhi v = 0) (h1 : fieldRsv1 v = 0) (h0 : fieldRsv0 v = 0) :
    commandWord (fieldOp v) (fieldD v) (fieldS v) (fieldRi v) (fieldRo v) (fieldImm v) = v := by
  apply BitVec.eq_of_getLsbD_eq
  intro i hi
  have hd : ∀ j, (fieldD v).val.testBit j = (decide (j < 2) && v.getLsbD (8 + j)) := fun j =>
    BitVec.getLsbD_extractLsb' 8 2 v j
  have hs : ∀ j, (fieldS v).val.testBit j = (decide (j < 2) && v.getLsbD (10 + j)) := fun j =>
    BitVec.getLsbD_extractLsb' 10 2 v j
  rw [getLsbD_commandWord]
  split_ifs with h8 h10 h12 h12' h13 h16 h24
  · simp [fieldOp, h8]
  · rw [hd]
    simp [show i - 8 < 2 by omega, show 8 + (i - 8) = i by omega]
  · rw [hs]
    simp [show i - 10 < 2 by omega, show 10 + (i - 10) = i by omega]
  · rw [h12']; rfl
  · rw [h13]; rfl
  · exact (getLsbD_of_field_zero h0 (by omega) (by omega)).symm
  · simp [fieldImm, show i - 16 < 8 by omega, show 16 + (i - 16) = i by omega]
  · by_cases h32 : i < 32
    · exact (getLsbD_of_field_zero h1 (by omega) (by omega)).symm
    · exact (getLsbD_of_field_zero hz (by omega) (by omega)).symm

/-! ### The codes of the map -/

@[simp] theorem Opcode.ofByte_code (op : Opcode) : Opcode.ofByte op.code = some op := by
  cases op <;> rfl

theorem Opcode.code_of_ofByte {b : Byte} {op : Opcode} (h : Opcode.ofByte b = some op) : op.code = b := by
  revert b op
  decide +kernel

@[simp] theorem Selector.ofByte_code (q : Selector) : Selector.ofByte q.code = some q := by
  cases q <;> rfl

theorem Selector.code_of_ofByte {b : Byte} {q : Selector} (h : Selector.ofByte b = some q) : q.code = b := by
  revert b q
  decide +kernel

end Sys2Proof
end

