-- ==== Sys2Proof/Laws/Matrix.lean ====
section
/-! SUPPORT. The combine engine's matrices (R160, R162): the matrix-vector product is linear, a product of matrices is the
composition, the engine's loop is the iterate, and the zero-bit operator is the step on a zero bit. -/

namespace Sys2Proof.Machine

@[simp] theorem mulVec_zero (a : List Word) : mulVec a 0#64 = 0#64 := by
  induction a with
  | nil => rfl
  | cons column columns ih => simpa [mulVec] using ih

theorem mulVec_xor (a : List Word) (u v : Word) : mulVec a (u ^^^ v) = mulVec a u ^^^ mulVec a v := by
  induction a generalizing u v with
  | nil => simp [mulVec]
  | cons column columns ih =>
    simp only [mulVec, xor_shiftRight, ih, BitVec.getLsbD_xor]
    cases u.getLsbD 0 <;> cases v.getLsbD 0 <;>
      simp [BitVec.xor_assoc, xor_left_comm]

/-- A product of matrices acts as the composition (R160). -/
theorem mulVec_mulMat (a b : List Word) (v : Word) : mulVec (mulMat a b) v = mulVec a (mulVec b v) := by
  induction b generalizing v with
  | nil => simp [mulMat, mulVec]
  | cons column columns ih =>
    have h := ih (v >>> 1)
    simp only [mulMat] at h
    simp only [mulMat, List.map_cons, mulVec, h, mulVec_xor]
    cases v.getLsbD 0 <;> simp

/-- The engine's loop applies the matrix k times, when the fuel covers the bits of k (R162). -/
theorem powerApply_eq_iterate (fuel k : Nat) (a : List Word) (r : Word) (h : k < 2 ^ fuel) :
    powerApply fuel k a r = (mulVec a)^[k] r := by
  induction fuel generalizing k a r with
  | zero =>
    have : k = 0 := by simpa using h
    simp [powerApply, this]
  | succ fuel ih =>
    have hsq : mulVec (mulMat a a) = (mulVec a)^[2] := by
      funext v
      simp [mulVec_mulMat]
    simp only [powerApply]
    by_cases h0 : k = 0
    · simp [h0]
    · rw [if_neg h0, ih _ _ _ (by rw [pow_succ] at h; omega)]
      have hk : k = 2 * (k / 2) + k % 2 := by omega
      by_cases h2 : k / 2 = 0
      · have hk1 : k = 1 := by omega
        simp [hk1]
      · rw [if_neg h2, hsq, ← Function.iterate_mul]
        conv_rhs => rw [hk, Function.iterate_add_apply]
        obtain hm | hm := Nat.mod_two_eq_zero_or_one k <;> simp [hm]

/-- The columns f(2^k), f(2^(k+1)), … of a linear map, applied to the bits from k on. -/
theorem mulVec_columns {f : Word → Word} (hf : ∀ u v, f (u ^^^ v) = f u ^^^ f v) (n k : Nat) (h : k + n ≤ 64)
    (v : Word) :
    mulVec ((List.range' k n).map fun j => f ((1 : Word) <<< j)) v = f (truncTo n v <<< k) := by
  have h0 : f 0 = 0 := by
    have := hf 0 0
    simpa using this
  induction n generalizing k v with
  | zero =>
    have : truncTo 0 v = 0 := by
      apply BitVec.eq_of_getLsbD_eq
      intro i _
      rw [getLsbD_truncTo]
      simp
    simp [mulVec, this]
    simpa using h0.symm
  | succ n ih =>
    rw [List.range'_succ, List.map_cons, mulVec, ih (k + 1) (by omega)]
    have hsplit : truncTo (n + 1) v <<< k =
        (if v.getLsbD 0 then (1 : Word) <<< k else 0) ^^^ (truncTo n (v >>> 1) <<< (k + 1)) := by
      apply BitVec.eq_of_getLsbD_eq
      intro i hi
      have hone : ((if v.getLsbD 0 then (1 : Word) <<< k else 0)).getLsbD i = (decide (i = k) && v.getLsbD 0) := by
        cases v.getLsbD 0
        · simp
        · rw [if_pos rfl, BitVec.getLsbD_shiftLeft]
          by_cases hik : i = k
          · simp [hik, show k < 64 by omega]
          · by_cases hlt : i < k
            · simp [hlt, hik]
            · rw [show (1 : Word) = 1#64 from rfl, BitVec.getLsbD_one]
              simp [hik, show i - k ≠ 0 by omega]
      rw [BitVec.getLsbD_xor, hone, BitVec.getLsbD_shiftLeft, BitVec.getLsbD_shiftLeft, getLsbD_truncTo,
        getLsbD_truncTo, BitVec.getLsbD_ushiftRight]
      by_cases hlt : i < k
      · simp [hlt, show i < k + 1 by omega, show i ≠ k by omega]
      · by_cases hik : i = k
        · subst hik
          simp [hi]
        · have h1 : 1 + (i - (k + 1)) = i - k := by omega
          have h2 : (i - k < n + 1) ↔ (i - (k + 1) < n) := by omega
          simp only [hlt, hik, hi, h1, h2, show ¬ i < k + 1 by omega, decide_true, decide_false, Bool.not_false,
            Bool.true_and, Bool.false_and, Bool.false_xor]
    rw [hsplit, hf]
    cases v.getLsbD 0
    · simp only [Bool.false_eq_true, if_false, h0]
    · simp only [if_true]

/-- `M·r = Step(r, 0)` for every register of W bits (R160). -/
theorem mulVec_zeroBitMatrix {d : Desc} (hw : d.width ≤ 64) {r : Word} (hr : Fits d.width r) :
    mulVec (zeroBitMatrix d) r = stepBit d.width d.poly d.refIn r false := by
  have h := mulVec_columns (f := fun v => stepBit d.width d.poly d.refIn v false)
    (fun u v => by simpa using stepBit_xor d.width d.poly d.refIn u v false false) d.width 0 (by omega) r
  rw [← List.range_eq_range'] at h
  simpa [zeroBitMatrix, truncTo_of_fits hr] using h

end Sys2Proof.Machine
end

