-- ==== Sys2Proof/Laws/PerInstr.lean ====
section
/-! SUPPORT. One lemma per constructor of `Instr`, about the instruction as syntax: which opcode its encoding holds, that the
reserved bits are zero (R80), and that every field R82 marks "0" is zero. -/

namespace Sys2Proof.Laws.EncodeFields

/-- The row of the opcode map that a command belongs to (R82). -/
def opcodeOf : Instr → Opcode
  | .nop => .nop
  | .config _ _ _ _ => .config
  | .start _ => .start
  | .resume _ => .resume
  | .updb _ _ => .updb
  | .updd _ _ => .updd
  | .finish _ => .finish
  | .combine _ _ => .combine
  | .combv _ => .combv
  | .combf _ => .combf
  | .shift _ => .shift
  | .compat _ _ => .compat
  | .tblrd _ _ => .tblrd
  | .query _ _ => .query
  | .srst => .srst

/-- The encoding of `i` is a command word of its own row with nothing in a field that the row does not use. -/
def Statement (i : Instr) : Prop :=
  fieldZhi (encode i) = 0 ∧ fieldRsv1 (encode i) = 0 ∧ fieldRsv0 (encode i) = 0 ∧
    fieldOp (encode i) = (opcodeOf i).code ∧ unusedFieldSet (opcodeOf i).uses (encode i) = false

/-- The fields of an assembled word, for any opcode whose unused operands are given as zero. -/
theorem statement_commandWord (op : Opcode) (d s : CtxIdx) (ri ro : Bool) (imm : Byte)
    (h : ((!op.uses.d && d != 0) || (!op.uses.s && s != 0) || (!op.uses.flags && (ri || ro)) ||
      (!op.uses.imm && imm != 0)) = false) :
    let v := commandWord op.code d s ri ro imm
    fieldZhi v = 0 ∧ fieldRsv1 v = 0 ∧ fieldRsv0 v = 0 ∧ fieldOp v = op.code ∧
      unusedFieldSet op.uses v = false := by
  simpa [unusedFieldSet] using h

theorem nop : Statement .nop := statement_commandWord _ _ _ _ _ _ rfl
theorem config (d : CtxIdx) (w : Byte) (ri : Bool) (ro : Bool) : Statement (.config d w ri ro) := statement_commandWord _ _ _ _ _ _ rfl
theorem start (d : CtxIdx) : Statement (.start d) := statement_commandWord _ _ _ _ _ _ rfl
theorem resume (d : CtxIdx) : Statement (.resume d) := statement_commandWord _ _ _ _ _ _ rfl
theorem updb (d : CtxIdx) (c : Byte) : Statement (.updb d c) := statement_commandWord _ _ _ _ _ _ rfl
theorem updd (d : CtxIdx) (n : Fin 9) : Statement (.updd d n) := statement_commandWord _ _ _ _ _ _ rfl
theorem finish (d : CtxIdx) : Statement (.finish d) := statement_commandWord _ _ _ _ _ _ rfl
theorem combine (d : CtxIdx) (s : CtxIdx) : Statement (.combine d s) := statement_commandWord _ _ _ _ _ _ rfl
theorem combv (d : CtxIdx) : Statement (.combv d) := statement_commandWord _ _ _ _ _ _ rfl
theorem combf (d : CtxIdx) : Statement (.combf d) := statement_commandWord _ _ _ _ _ _ rfl
theorem shift (d : CtxIdx) : Statement (.shift d) := statement_commandWord _ _ _ _ _ _ rfl
theorem compat (d : CtxIdx) (s : CtxIdx) : Statement (.compat d s) := statement_commandWord _ _ _ _ _ _ rfl
theorem tblrd (d : CtxIdx) (k : Byte) : Statement (.tblrd d k) := statement_commandWord _ _ _ _ _ _ rfl
theorem query (d : CtxIdx) (q : Selector) : Statement (.query d q) := statement_commandWord _ _ _ _ _ _ rfl
theorem srst : Statement .srst := statement_commandWord _ _ _ _ _ _ rfl

end Sys2Proof.Laws.EncodeFields
end

