-- ==== Sys2Proof/Laws/Update.lean ====
section
/-! SUPPORT. The lookup table (R104) and what a zero byte does to a register: the bits that leave it, as if
they were input to an empty register, and the bits that stay. These are the two halves of the table-driven update (R140). -/

namespace Sys2Proof.Machine

@[simp] theorem entry_tableOf (w : Nat) (p : Word) (ri : Bool) (c : Byte) :
    (tableOf w p ri).entry c = byteStep w p ri 0 c := by
  simp [Table.entry, tableOf]

theorem byteN_eq_foldl (w : Nat) (p r : Word) (c : Byte) :
    byteN w p r c = ((List.range 8).map fun i => c.getLsbD (7 - i)).foldl (stepN w p) r := rfl

theorem byteR_eq_foldl (rp r : Word) (c : Byte) :
    byteR rp r c = ((List.range 8).map fun i => c.getLsbD i).foldl (stepR rp) r := rfl

/-- Splitting a byte step into the byte from an empty register and the register over a zero byte (R144). -/
theorem byteStep_split (w : Nat) (p : Word) (ri : Bool) (r : Word) (c : Byte) :
    byteStep w p ri r c = byteStep w p ri 0 c ^^^ byteStep w p ri r 0 := by
  have h := byteStep_xor w p ri 0 r c 0
  simpa using h

/-- The zero byte on a reflected register. -/
theorem byteR_zeroByte (rp r : Word) : byteR rp r 0 = byteR rp 0 (r.setWidth 8) ^^^ (r >>> 8) := by
  have h := foldl_stepR_zeros rp r 8
  rw [byteR_eq_foldl, byteR_eq_foldl]
  simpa [List.range, List.range.loop] using h

/-- The zero byte on a register of eight bits or more in normal orientation. -/
theorem byteN_zeroByte_wide {w : Nat} (h8 : 8 ≤ w) (hw : w ≤ 64) (p : Word) {r : Word} (hr : Fits w r) :
    byteN w p r 0 = byteN w p 0 ((r >>> (w - 8)).setWidth 8) ^^^ truncTo w (r <<< 8) := by
  have h := foldl_stepN_zeros hw p r 8 h8 hr
  rw [byteN_eq_foldl, byteN_eq_foldl]
  have hbits : ((List.range 8).map fun i => ((r >>> (w - 8)).setWidth 8).getLsbD (7 - i)) =
      (List.range 8).map fun i => r.getLsbD (w - 1 - i) := by
    apply List.map_congr_left
    intro i hi
    have hi8 : i < 8 := List.mem_range.mp hi
    rw [BitVec.getLsbD_setWidth, BitVec.getLsbD_ushiftRight]
    simp only [show 7 - i < 8 by omega, decide_true, Bool.true_and]
    congr 1
    omega
  rw [hbits, ← h]
  rfl

/-- The zero byte on a register of fewer than eight bits in normal orientation (conflict C7). -/
theorem byteN_zeroByte_narrow {w : Nat} (h8 : w < 8) (p : Word) {r : Word} (hr : Fits w r) :
    byteN w p r 0 = byteN w p 0 ((r <<< (8 - w)).setWidth 8) := by
  have h := foldl_stepN_zeros (by omega : w ≤ 64) p r w (Nat.le_refl w) hr
  have hout : truncTo w (r <<< w) = 0 := by
    apply BitVec.eq_of_getLsbD_eq
    intro i hi
    rw [getLsbD_truncTo, BitVec.getLsbD_shiftLeft]
    by_cases hiw : i < w <;> simp [hiw]
  have hbits : ((List.range 8).map fun i => ((r <<< (8 - w)).setWidth 8).getLsbD (7 - i)) =
      ((List.range w).map fun i => r.getLsbD (w - 1 - i)) ++ List.replicate (8 - w) false := by
    apply List.ext_getElem
    · simp; omega
    · intro i h1 h2
      have hi8 : i < 8 := by simpa using h1
      rw [List.getElem_append]
      simp only [List.getElem_map, List.getElem_range, List.length_map, List.length_range,
        List.getElem_replicate]
      rw [BitVec.getLsbD_setWidth, BitVec.getLsbD_shiftLeft]
      by_cases hiw : i < w
      · simp only [hiw, dite_true, show 7 - i < 8 by omega, show 7 - i < 64 by omega,
          show ¬ 7 - i < 8 - w by omega, decide_true, decide_false, Bool.not_false, Bool.true_and]
        congr 1
        omega
      · simp [hiw, show 7 - i < 8 - w by omega]
  have hzeros : byteN w p r 0 =
      (List.replicate (8 - w) false).foldl (stepN w p) ((List.replicate w false).foldl (stepN w p) r) := by
    rw [← List.foldl_append, ← List.replicate_add, show w + (8 - w) = 8 by omega]
    rfl
  rw [hzeros, h, hout, byteN_eq_foldl, hbits, List.foldl_append]
  simp

end Sys2Proof.Machine
end

