-- ==== Sys2Proof/Machine/Assembler.lean ====
section
/-! DEFINITION. The assembly text of a host program, one statement a line (30_encoding.md R87), read into the bus statements of
HostSide.lean. No step depends on this file. -/

namespace Sys2Proof.Machine

/-- What a line of assembly is. -/
inductive AsmLine where
  /-- Blank, or a comment alone. -/
  | blank
  | stmt (s : Stmt)
  /-- Not a statement of R87. -/
  | malformed
  deriving DecidableEq, Repr

/-- Leading and trailing white space removed. -/
def trimChars (t : List Char) : List Char :=
  ((t.dropWhile Char.isWhitespace).reverse.dropWhile Char.isWhitespace).reverse

/-- The digits of a number in base 10 or 16, most significant first; none if one of them is no digit. -/
def digitsValue (base : Nat) : (value : Nat) → List Char → Option Nat
  | value, [] => some value
  | value, c :: rest =>
    let digit :=
      if '0' ≤ c ∧ c ≤ '9' then c.toNat - 48
      else if 'a' ≤ c ∧ c ≤ 'f' then c.toNat - 87
      else base
    if digit < base then digitsValue base (value * base + digit) rest else none

/-- "Numbers are decimal, or hexadecimal with `0x`" (R87). -/
def numberOf : List Char → Option Nat
  | [] => none
  | '0' :: 'x' :: c :: rest => digitsValue 16 0 (c :: rest)
  | c :: rest => digitsValue 10 0 (c :: rest)

/-- The 64-bit datum of a `wr` statement. -/
def datumOf (t : List Char) : Option Word :=
  match numberOf t with
  | some n => if n < 2 ^ 64 then some (BitVec.ofNat 64 n) else none
  | none => none

/-- The opcode of a mnemonic in lowercase. -/
def opcodeNamed (t : List Char) : Option Opcode :=
  if t = ['n', 'o', 'p'] then some .nop
  else if t = ['c', 'o', 'n', 'f', 'i', 'g'] then some .config
  else if t = ['s', 't', 'a', 'r', 't'] then some .start
  else if t = ['r', 'e', 's', 'u', 'm', 'e'] then some .resume
  else if t = ['u', 'p', 'd', 'b'] then some .updb
  else if t = ['u', 'p', 'd', 'd'] then some .updd
  else if t = ['f', 'i', 'n', 'i', 's', 'h'] then some .finish
  else if t = ['c', 'o', 'm', 'b', 'i', 'n', 'e'] then some .combine
  else if t = ['c', 'o', 'm', 'b', 'v'] then some .combv
  else if t = ['c', 'o', 'm', 'b', 'f'] then some .combf
  else if t = ['s', 'h', 'i', 'f', 't'] then some .shift
  else if t = ['c', 'o', 'm', 'p', 'a', 't'] then some .compat
  else if t = ['t', 'b', 'l', 'r', 'd'] then some .tblrd
  else if t = ['q', 'u', 'e', 'r', 'y'] then some .query
  else if t = ['s', 'r', 's', 't'] then some .srst
  else none

/-- The register of a name in lowercase (R21). -/
def winRegNamed (t : List Char) : Option WinReg :=
  if t = ['c', 'm', 'd'] then some .cmd
  else if t = ['a', 'r', 'g', '0'] then some .arg0
  else if t = ['a', 'r', 'g', '1'] then some .arg1
  else if t = ['a', 'r', 'g', '2'] then some .arg2
  else if t = ['r', 'e', 's'] then some .res
  else if t = ['s', 't', 'a', 't', 'u', 's'] then some .status
  else if t = ['i', 'd'] then some .id
  else none

/-- A context operand `cN`, taken off the operands if the opcode uses the field; else 0 (R87). -/
def takeContext (used : Bool) (ops : List (List Char)) : Option (CtxIdx × List (List Char)) :=
  match used, ops with
  | false, ops => some (0, ops)
  | true, ['c', n] :: rest =>
    match digitsValue 10 0 [n] with
    | some k => if h : k < 4 then some (⟨k, h⟩, rest) else none
    | none => none
  | true, _ => none

/-- An immediate operand `#imm`. -/
def takeImm (used : Bool) (ops : List (List Char)) : Option (Byte × List (List Char)) :=
  match used, ops with
  | false, ops => some (0, ops)
  | true, ('#' :: n) :: rest =>
    match numberOf n with
    | some k => if k < 256 then some (BitVec.ofNat 8 k, rest) else none
    | none => none
  | true, _ => none

/-- An optional flag operand. -/
def takeFlag (used : Bool) (flag : List Char) (ops : List (List Char)) : Bool × List (List Char) :=
  match ops with
  | o :: rest => if used && o == flag then (true, rest) else (false, ops)
  | [] => (false, [])

/-- `mnemonic [cD][, cS][, #imm][, ri][, ro]` (R87), as the word that R86 gives it. An operand out of the
device's range assembles, and the device answers IllegalCommand (R83). -/
def commandText (op : Opcode) (ops : List (List Char)) : Option Word :=
  match takeContext op.uses.d ops with
  | none => none
  | some (d, ops) =>
    match takeContext op.uses.s ops with
    | none => none
    | some (s, ops) =>
      match takeImm op.uses.imm ops with
      | none => none
      | some (imm, ops) =>
        let (ri, ops) := takeFlag op.uses.flags ['r', 'i'] ops
        let (ro, ops) := takeFlag op.uses.flags ['r', 'o'] ops
        if ops = [] then some (commandWord op.code d s ri ro imm) else none

/-- `wr ARGn, value`, `wr STATUS, value` and the programs' `wr CMD, v` (R87, 95_test_vectors.md section 3). -/
def writeText (ops : List (List Char)) : Option Stmt :=
  match ops with
  | [name, value] =>
    match winRegNamed name, datumOf value with
    | some .cmd, some v => some (.wrCmd v)
    | some .arg0, some v => some (.wrArg0 v)
    | some .arg1, some v => some (.wrArg1 v)
    | some .arg2, some v => some (.wrArg2 v)
    | some .status, some v => some (.wrStatus v)
    | _, _ => none
  | _ => none

/-- `rd REG` (R87). -/
def readText (ops : List (List Char)) : Option Stmt :=
  match ops with
  | [name] => (winRegNamed name).map .rd
  | _ => none

/-- One statement, its head word and its operands in lowercase. -/
def stmtText (head : List Char) (ops : List (List Char)) : Option Stmt :=
  if head = ['w', 'r'] then writeText ops
  else if head = ['r', 'd'] then readText ops
  else
    match opcodeNamed head with
    | some op => (commandText op ops).map .wrCmd
    | none => none

/-- One line of assembly: `;` starts a comment, letters in either case (R87). -/
def assembleLine (line : List Char) : AsmLine :=
  let text := trimChars ((line.takeWhile (· != ';')).map Char.toLower)
  if text = [] then .blank
  else
    let head := text.takeWhile (fun c => !c.isWhitespace)
    let rest := trimChars (text.dropWhile (fun c => !c.isWhitespace))
    let ops := if rest = [] then [] else (rest.splitOn ',').map trimChars
    match stmtText head ops with
    | some s => .stmt s
    | none => .malformed

end Sys2Proof.Machine
end

