-- ==== Sys2Proof/Tests/Slice0.lean ====
section
/-! SUPPORT. The model's own tests: ill-formed commands refused, one decoded word per command and the illegal values of
95_test_vectors.md L2.5.1, one-step checks against that file's values, and for every statement a state that meets its
hypotheses. Expected values are the spec's, the vector named beside each. -/

-- One theorem after the other: side by side, the kernel evaluations below take many threads and so much memory.
set_option Elab.async false

namespace Sys2Proof.Tests

open Sys2Proof.Machine Sys2Proof.Claims

/-! ### Small devices -/

/-- CRC-32, CRC-16/ARC, ASYM, CRC-3/GSM, PAR1 and CRC-64/XZ of 95_test_vectors.md. -/
def crc32 : Desc := ⟨32, 0x04C11DB7, 0xFFFFFFFF, true, true, 0xFFFFFFFF⟩
def arc : Desc := ⟨16, 0x8005, 0, true, true, 0⟩
def asym : Desc := ⟨16, 0x1021, 0x1234, true, false, 0x00FF⟩
def gsm : Desc := ⟨3, 3, 0, false, false, 7⟩
def par1 : Desc := ⟨1, 1, 0, false, false, 0⟩
def xz : Desc := ⟨64, 0x42F0E1EBA9EA3693, 0xFFFFFFFFFFFFFFFF, true, true, 0xFFFFFFFFFFFFFFFF⟩

/-- A context in CONF, and one in ACTIVE, with the descriptor's own table. -/
def conf (d : Desc) : Context := .conf d d.tableOf
def active (d : Desc) (reg len : Word) : Context := .active d d.tableOf reg len

/-- The spec's instance with two given contexts. -/
def device (a b : Context) : State := { State.reset with ctxs := #v[a, b, .unconf, .unconf] }

/-- The same with ARG0 to ARG2 written. -/
def deviceArgs (a b : Context) (x y z : Word) : State := { device a b with arg0 := x, arg1 := y, arg2 := z }

/-- What a test reads off an outcome; a stop reads as none. -/
def resOf : Result → Option Word
  | .next t => some t.res
  | .fault _ => none
  | .refused _ => none

def statusOf : Result → Option Word
  | .next t => some t.statusWord
  | .fault _ => none
  | .refused _ => none

/-- REG and LEN of an ACTIVE context after the step. -/
def accOf (c : CtxIdx) : Result → Option (Word × Word)
  | .next t => match t.ctx c with
    | .active _ _ reg len => some (reg, len)
    | .conf _ _ => none
    | .unconf => none
  | .fault _ => none
  | .refused _ => none

/-- W, P, INIT and XO of a context after the step. -/
def descOf (c : CtxIdx) : Result → Option (Nat × Word × Word × Word)
  | .next t => (t.ctx c).desc?.map fun d => (d.width, d.poly, d.init, d.xorOut)
  | .fault _ => none
  | .refused _ => none

def replyOf : Result → Option Reply
  | .next t => t.replies.head?
  | .fault _ => none
  | .refused _ => none

def faultOf : Result → Option Fault
  | .next _ => none
  | .fault f => some f
  | .refused _ => none

/-- The value decodes to no command. -/
def illegal (v : Word) (x : DecodeError) : Prop := decode 2 v = .error x

/-! ### WellFormed refuses -/

theorem test_wf_refuses_destination : (Instr.start 2).wf 2 = false := by decide
theorem test_wf_refuses_destination_of_one : (Instr.updb 1 0x31).wf 1 = false := by decide
theorem test_wf_refuses_source : (Instr.combine 0 3).wf 2 = false := by decide
theorem test_wf_refuses_compat_source : (Instr.compat 1 2).wf 2 = false := by decide
theorem test_wf_refuses_every_absent_destination :
    [Instr.config 2 32 true true, .resume 2, .updd 2 8, .finish 2, .combine 2 0, .combv 2, .combf 2, .shift 2,
      .compat 2 0, .tblrd 2 0, .query 2 .len].all (fun i => !i.wf 2) = true := by decide
theorem test_wf_accepts : (Instr.combine 3 3).wf 4 = true ∧ Instr.srst.wf 1 = true := by decide

/-! ### Decoding: one word per command, written out from R82 and the vectors -/

theorem test_decode_nop : decode 2 0x0000000000000000 = .ok .nop := by rfl
theorem test_decode_config : decode 2 0x0000000000203001 = .ok (.config 0 32 true true) := by rfl
theorem test_decode_config_plain : decode 2 0x0000000000290001 = .ok (.config 0 41 false false) := by rfl
theorem test_decode_config_ri : decode 2 0x0000000000101101 = .ok (.config 1 16 true false) := by rfl
theorem test_decode_start : decode 2 0x0000000000000102 = .ok (.start 1) := by rfl
theorem test_decode_resume : decode 2 0x0000000000000003 = .ok (.resume 0) := by rfl
theorem test_decode_updb : decode 2 0x0000000000310104 = .ok (.updb 1 0x31) := by rfl
theorem test_decode_updd : decode 2 0x0000000000050105 = .ok (.updd 1 5) := by rfl
theorem test_decode_finish : decode 2 0x0000000000000106 = .ok (.finish 1) := by rfl
theorem test_decode_combine : decode 2 0x0000000000000407 = .ok (.combine 0 1) := by rfl
theorem test_decode_combine_back : decode 2 0x0000000000000107 = .ok (.combine 1 0) := by rfl
theorem test_decode_combv : decode 4 0x0000000000000308 = .ok (.combv 3) := by rfl
theorem test_decode_combf : decode 2 0x0000000000000009 = .ok (.combf 0) := by rfl
theorem test_decode_shift : decode 2 0x000000000000000A = .ok (.shift 0) := by rfl
theorem test_decode_compat : decode 2 0x000000000000040B = .ok (.compat 0 1) := by rfl
theorem test_decode_tblrd : decode 2 0x0000000000FF000C = .ok (.tblrd 0 0xFF) := by rfl
theorem test_decode_query : decode 2 0x000000000004000D = .ok (.query 0 .flags) := by rfl
theorem test_decode_srst : decode 2 0x000000000000000E = .ok .srst := by rfl

/-- R86's own examples, assembled. -/
theorem test_encode_r86 : encode (.updb 1 0x31) = 0x0000000000310104 ∧
    encode (.config 0 32 true true) = 0x0000000000203001 := by decide

/-- L2.5.1, the illegal rows in order. -/
theorem test_illegal_zhi : illegal 0x0000000100000000 .zhi := by rfl
theorem test_illegal_rsv1 : illegal 0x0000000001000000 .rsv1 := by rfl
theorem test_illegal_rsv0 : illegal 0x0000000000004000 .rsv0 := by rfl
theorem test_illegal_opcode : illegal 0x000000000000000F .opcode ∧ illegal 0x00000000000000FF .opcode := ⟨rfl, rfl⟩
theorem test_illegal_nop_fields : illegal 0x0000000000010000 .unusedField ∧
    illegal 0x0000000000000100 .unusedField := ⟨rfl, rfl⟩
theorem test_illegal_start_fields : illegal 0x0000000000001002 .unusedField ∧
    illegal 0x0000000000000402 .unusedField := ⟨rfl, rfl⟩
theorem test_illegal_contexts : illegal 0x0000000000000202 .contextD ∧
    illegal 0x0000000000000C07 .contextS := ⟨rfl, rfl⟩
theorem test_illegal_config_s : illegal 0x0000000000000401 .unusedField := by rfl
theorem test_illegal_count : illegal 0x0000000000090005 .count := by rfl
theorem test_illegal_selector : illegal 0x000000000007000D .selector := by rfl
theorem test_illegal_srst : illegal 0x000000000001000E .unusedField := by rfl

/-- The host's numbering of a table word: START c1 is bits 0 to 31. -/
theorem test_table_word : decodeTableWord 32 0x102 = some (.start 1) ∧ decodeTableWord 32 0x10F = none := ⟨rfl, rfl⟩

/-! ### One step each -/

/-- L2.4.1: STATUS 0x000A0602 becomes 0x000A0600. -/
theorem test_nop : statusOf (commandWrite 0 { device (active crc32 0 0) (active arc 0 0) with
    err := .typeMismatch, sticky := 6 }) = some 0x000A0600 := by decide +kernel

/-- L2.4.2. -/
theorem test_srst : statusOf (exec .srst { deviceArgs (active gsm 1 1) (conf arc) 1 2 3 with res := 9, sticky := 15 }) =
    some 0 := by decide +kernel
theorem test_srst_contexts : descOf 1 (exec .srst (device (active gsm 1 1) (conf arc))) = none := by decide +kernel

/-- L2.1.2, the row with oversize operands and the rejected row of L1.5. -/
theorem test_config_masks : descOf 0 (exec (.config 0 8 false false)
    (deviceArgs .unconf .unconf 0x101 0x1FF 0x3FF)) = some (8, 0x01, 0xFF, 0xFF) := by decide +kernel
theorem test_config_even : statusOf (exec (.config 0 8 false false) (deviceArgs .unconf .unconf 2 0 0)) =
    some 0x00000101 := by decide +kernel
theorem test_config_widths : (descOf 0 (exec (.config 0 0 false false) (deviceArgs .unconf .unconf 7 0 0)),
    descOf 0 (exec (.config 0 65 false false) (deviceArgs .unconf .unconf 7 0 0)),
    (descOf 0 (exec (.config 0 64 true true) (deviceArgs .unconf .unconf 0x42F0E1EBA9EA3693 0 1))).isSome) =
    (none, none, true) := by decide +kernel

/-- L2.1.3: ASYM's START, and its RESUME from 0xE1C1. -/
theorem test_start : accOf 0 (exec (.start 0) (device (conf asym) .unconf)) = some (0x2C48, 0) := by decide +kernel
theorem test_resume : accOf 0 (exec (.resume 0) (deviceArgs (conf asym) .unconf 0xE1C1 0 0)) =
    some (0x7C87, 0) := by decide +kernel

/-- L2.2.1: CRC-32 and CRC-3/GSM, one byte. -/
theorem test_updb : accOf 0 (exec (.updb 0 0x31) (device (active crc32 0xFFFFFFFF 0) .unconf)) =
    some (0x7C231048, 1) := by decide +kernel
theorem test_updb_narrow : accOf 0 (exec (.updb 0 0x33) (device (active gsm 5 2) .unconf)) = some (7, 3) := by
  decide +kernel

/-- P1 and P2: 8 bytes of ARG0, and 4. -/
theorem test_updd : accOf 0 (exec (.updd 0 8) (deviceArgs (active crc32 0xFFFFFFFF 0) .unconf 0x3837363534333231 0 0)) =
    some (0x651F2550, 8) := by decide +kernel
theorem test_updd_part : accOf 0 (exec (.updd 0 4)
    (deviceArgs (active crc32 0xFFFFFFFF 0) .unconf 0x3837363534333231 0 0)) = some (0x641C1F5C, 4) := by decide +kernel

/-- L2.1.3 and L2.2.1: Finalize with RI and RO different, and equal. -/
theorem test_finish : resOf (exec (.finish 0) (device (active asym 0xA57D 11) .unconf)) = some 0xBE5A := by
  decide +kernel
theorem test_finish_equal_flags : resOf (exec (.finish 0) (device (active crc32 0x340BC6D9 9) .unconf)) =
    some 0xCBF43926 := by decide +kernel

/-- L2.3.2: two contexts, and a context with itself. -/
theorem test_combine : accOf 0 (exec (.combine 0 1) (device (active crc32 0x641C1F5C 4) (active crc32 0xECE25F8F 5))) =
    some (0x340BC6D9, 9) := by decide +kernel
theorem test_combine_self : accOf 0 (exec (.combine 0 0) (device (active crc32 0x340BC6D9 9) .unconf)) =
    some (0xB47C851B, 18) := by decide +kernel

/-- L2.3.3, with high bits that are ignored. -/
theorem test_combv : accOf 0 (exec (.combv 0) (deviceArgs (active crc32 0x641C1F5C 4) .unconf 0xFFFFFFFF131DA070 5 0)) =
    some (0x340BC6D9, 9) := by decide +kernel

/-- L2.3.4, the row that tells the corrected formula from the source's (conflict C2). -/
theorem test_combf : resOf (exec (.combf 0) (deviceArgs (conf asym) .unconf 0xE1C1 5 0x0775)) = some 0xBE5A := by
  decide +kernel

/-- L2.3.1: one byte, and the longest distance. -/
theorem test_shift : resOf (exec (.shift 0) (deviceArgs (conf crc32) .unconf 0xFFFFFFFF00000001 1 0)) =
    some 0x77073096 := by decide +kernel
theorem test_shift_longest : resOf (exec (.shift 0) (deviceArgs (conf gsm) .unconf 1 0xFFFFFFFFFFFFFFFF 0)) = some 2 := by
  decide +kernel

/-- L2.1.4: equal but for the state, and different in XO alone. -/
theorem test_compat : resOf (exec (.compat 0 1) (device (active crc32 5 5) (conf crc32))) = some 1 := by decide +kernel
theorem test_compat_xorout : resOf (exec (.compat 0 1) (device (conf crc32) (conf { crc32 with xorOut := 0 }))) =
    some 0 := by decide +kernel

/-- L2.1.1: a reflected entry and a normal one. -/
theorem test_tblrd : resOf (exec (.tblrd 0 0x80) (device (conf crc32) .unconf)) = some 0xEDB88320 := by decide +kernel
theorem test_tblrd_normal : resOf (exec (.tblrd 0 0x31) (device (conf { crc32 with refIn := false }) .unconf)) =
    some 0xD0F37027 := by decide +kernel

/-- L2.1.5: ASYM's INIT as configured and its flags. -/
theorem test_query_init : resOf (exec (.query 0 .init) (device (active asym 0x2C48 0) .unconf)) = some 0x1234 := by
  decide +kernel
theorem test_query_flags : resOf (exec (.query 0 .flags) (device (active asym 0x2C48 0) .unconf)) = some 1 := by
  decide +kernel

/-! ### Errors, STATUS and the window (L2.5.2 to L2.5.4) -/

theorem test_priority_decode_first : statusOf (commandWrite 0x0000000000090005 (device .unconf .unconf)) =
    some 0x00000804 := by decide +kernel
theorem test_priority_state_first : statusOf (exec (.combine 0 1) (device (conf crc32) (active arc 0 0))) =
    some 0x00090403 := by decide +kernel
theorem test_type_mismatch : statusOf (exec (.combine 0 1) (device (active crc32 0 0) (active arc 0 0))) =
    some 0x000A0202 := by decide +kernel
theorem test_status_write : statusOf (busWrite .status 0x400 { device (active crc32 0 0) (active crc32 0 0) with
    err := .illegalCommand, sticky := 14 }) = some 0x000A0A04 := by decide +kernel
theorem test_status_write_ones : statusOf (busWrite .status 0xFFFFFFFFFFFFFFFF { device (active crc32 0 0)
    (active crc32 0 0) with err := .illegalCommand, sticky := 14 }) = some 0x000A0004 := by decide +kernel
theorem test_read_id : replyOf (performAccess ⟨3, 0x30, 8, .read⟩ State.reset) = some ⟨3, 0x4352434340020001⟩ := by
  decide +kernel
theorem test_write_res_ignored : resOf (performAccess ⟨0, 0x20, 8, .write 0x1234⟩ State.reset) = some 0 := by
  decide +kernel
theorem test_write_arg1 : replyOf (match performAccess ⟨0, 0x10, 8, .write 0xFEDCBA9876543210⟩ State.reset with
    | .next t => performAccess ⟨0, 0x10, 8, .read⟩ t
    | other => other) = some ⟨0, 0xFEDCBA9876543210⟩ := by decide +kernel
theorem test_narrow_access : faultOf (performAccess ⟨0, 0x28, 4, .read⟩ State.reset) = some .busError := by decide +kernel
theorem test_misaligned_access : faultOf (performAccess ⟨0, 0x04, 8, .write 0⟩ State.reset) = some .busError := by
  decide +kernel
theorem test_outside_access : faultOf (performAccess ⟨0, 0x40, 8, .read⟩ State.reset) = some .outsideWindow := by
  decide +kernel

/-- P3's first line, as a step from reset. -/
theorem test_step : statusOf (step (State.reset.withFetchWord 32 0x2)) = some 0x00000403 := by decide +kernel

/-! ### Host side (R84, R87, R88, R148) -/

/-- L1.6 and the table of R148's instances. -/
theorem test_hex_digest : hexDigest 41 0x135AF9E1C55 =
    ['1', '3', '5', 'a', 'f', '9', 'e', '1', 'c', '5', '5'] := by decide +kernel
theorem test_digest_bytes : digestBytes 41 0x135AF9E1C55 = [0x01, 0x35, 0xAF, 0x9E, 0x1C, 0x55] := by decide +kernel

/-- P1's statements. -/
theorem test_assemble_config : assembleLine "config c0, #32, ri, ro  ; CRC-32".toList = .stmt (.wrCmd 0x203001) := by
  decide +kernel
theorem test_assemble_write : assembleLine "wr ARG0, 0x04C11DB7".toList = .stmt (.wrArg0 0x04C11DB7) := by
  decide +kernel
theorem test_assemble_read : assembleLine "rd RES".toList = .stmt (.rd .res) := by decide +kernel
theorem test_assemble_malformed : assembleLine "start".toList = .malformed := by decide +kernel
theorem test_update_groups : updateStmts 1 [0x31, 0x32, 0x33, 0x34, 0x35, 0x36, 0x37, 0x38, 0x39] =
    [.wrArg0 0x3837363534333231, .wrCmd 0x80105, .wrArg0 0x39, .wrCmd 0x10105] := by decide +kernel

/-! ### Witnesses: for every statement with hypotheses, a state and operands that meet them -/

theorem device_ctx0 (a b : Context) : (device a b).ctx 0 = a := rfl
theorem device_ctx1 (a b : Context) : (device a b).ctx 1 = b := rfl
theorem deviceArgs_ctx0 (a b : Context) (x y z : Word) : (deviceArgs a b x y z).ctx 0 = a := rfl

/-- A command ends with a next state. -/
theorem ends (i : Instr) (s : State) : ∃ t, exec i s = .next t := effect_next (exec_effect i s)

/-- One UNCONF-free device: CONF with CRC-3/GSM, ACTIVE with ASYM. -/
def both : State := device (conf gsm) (active asym 0x2C48 3)

/-- The states that the clauses of START, RESUME, COMBF, SHIFT and TBLRD name. -/
theorem witness_variant_clauses : State.reset.ctx 3 = .unconf ∧ both.ctx 0 = .conf gsm gsm.tableOf ∧
    (∃ reg len, both.ctx 1 = .active asym asym.tableOf reg len) := ⟨rfl, rfl, _, _, rfl⟩

/-- The states that the clauses of UPDB, UPDD, FINISH, COMBV and QUERY name. -/
theorem witness_instance_clauses : (State.reset.ctx 0).phase ≠ .active ∧ (both.ctx 0).phase ≠ .active ∧
    both.ctx 1 = .active asym asym.tableOf 0x2C48 3 ∧ (both.ctx 1).phase = .active :=
  ⟨by decide, by decide, rfl, rfl⟩

theorem witness_valid_descriptors : par1.Valid ∧ gsm.Valid ∧ asym.Valid ∧ crc32.Valid ∧ xz.Valid := by decide

/-- For the clause "IllegalCommand (decode)" of every command: START with RI = 1. -/
theorem witness_IllegalOtherwise : fieldOp 0x1002 = 0x02 ∧ ∀ i, decode State.reset.cfg.nctx 0x1002 ≠ .ok i :=
  ⟨by decide, fun _ h => by cases (show Except.error DecodeError.unusedField = _ from h)⟩

theorem witness_NopOnlyClearsErr : fieldOp 0x100 = 0x00 ∧ (0x100 : Word) ≠ 0 := by decide

theorem witness_SrstGivesTheResetState :
    (∃ t a, both.resetAsserted = false ∧ exec .srst both = .next t ∧ performEvent .assertReset both = .next a ∧
      performEvent .releaseReset a = .next t) ∧
    (fieldOp 0x1000E = 0x0E ∧ (0x1000E : Word) ≠ 0x0E) := ⟨⟨_, _, rfl, rfl, rfl, rfl⟩, by decide⟩

/-- Widths 0 and 65, an even polynomial, and the least and the greatest valid width. -/
theorem witness_ConfigLoadsDescriptorOrChangesNothing :
    ((0 : Byte).toNat < 1 ∧ 64 < (65 : Byte).toNat ∧ ((2 : Word) &&& BitVec.ofNat 64 (2 ^ 8 - 1)).getLsbD 0 = false) ∧
    ∀ w ∈ [1, 64], 1 ≤ w ∧ w ≤ 64 ∧ ((1 : Word) &&& BitVec.ofNat 64 (2 ^ w - 1)).getLsbD 0 = true := by decide

theorem witness_StartSeedsFromInit : State.reset.ctx 0 = .unconf ∧
    (both.ctx 0 = .conf gsm gsm.tableOf ∨ ∃ reg len, both.ctx 0 = .active gsm gsm.tableOf reg len) :=
  ⟨rfl, .inl rfl⟩

theorem witness_ResumeContinuesFromChecksum : ∃ t u, asym.Valid ∧
    (both.ctx 1 = .conf asym asym.tableOf ∨ ∃ reg len, both.ctx 1 = .active asym asym.tableOf reg len) ∧
    exec (.resume 1) both = .next t ∧ exec (.finish 1) t = .next u := by
  obtain ⟨t, ht⟩ := ends (.resume 1) both
  obtain ⟨u, hu⟩ := ends (.finish 1) t
  exact ⟨t, u, by decide, .inr ⟨_, _, rfl⟩, ht, hu⟩

theorem witness_UpdbConsumesItsByte : (both.ctx 0).phase ≠ .active ∧
    both.ctx 1 = .active asym asym.tableOf 0x2C48 3 := ⟨by decide, rfl⟩

theorem witness_UpddConsumesLanesOfArg0 : (both.ctx 0).phase ≠ .active ∧
    both.ctx 1 = .active asym asym.tableOf 0x2C48 3 ∧ (both.ctx 1).phase = .active := ⟨by decide, rfl, rfl⟩

theorem witness_FinishReturnsFinalizedRegister : (both.ctx 0).phase ≠ .active ∧
    both.ctx 1 = .active asym asym.tableOf 0x2C48 3 ∧ asym.Valid ∧ Fits asym.width 0x2C48 :=
  ⟨by decide, rfl, by decide, by decide⟩

/-- Either context not ACTIVE; both ACTIVE with unequal and with equal descriptors; a source that is not the
destination. -/
theorem witness_CombineMergesSourceIntoDestination :
    (both.ctx 0).phase ≠ .active ∧
    ((device (active gsm 1 1) (active asym 0 0)).ctx 0 = .active gsm gsm.tableOf 1 1 ∧
      (device (active gsm 1 1) (active asym 0 0)).ctx 1 = .active asym asym.tableOf 0 0 ∧ gsm ≠ asym) ∧
    ((device (active gsm 1 1) (active gsm 2 5)).ctx 0 = .active gsm gsm.tableOf 1 1 ∧
      (device (active gsm 1 1) (active gsm 2 5)).ctx 1 = .active gsm gsm.tableOf 2 5) ∧
    ∃ t, (1 : CtxIdx) ≠ 0 ∧ exec (.combine 0 1) (device (active gsm 1 1) (active gsm 2 5)) = .next t :=
  ⟨by decide, ⟨rfl, rfl, by decide⟩, ⟨rfl, rfl⟩, (ends _ _).imp fun _ h => ⟨by decide, h⟩⟩

/-- The corner case too: no bytes, and the checksum of nothing. -/
theorem witness_CombvMergesChecksumIntoContext : (both.ctx 0).phase ≠ .active ∧
    (deviceArgs (active asym 0x2C48 3) .unconf 0x12CB 0 0).ctx 0 = .active asym asym.tableOf 0x2C48 3 ∧ asym.Valid ∧
    Fits asym.width 0x2C48 ∧ (deviceArgs (active asym 0x2C48 3) .unconf 0x12CB 0 0).arg1 = 0 ∧
    (deviceArgs (active asym 0x2C48 3) .unconf 0x12CB 0 0).arg0 = finalize asym asym.ninit :=
  ⟨by decide, rfl, by decide, by decide, rfl, by decide⟩

theorem witness_CombfReturnsPureCombination : State.reset.ctx 0 = .unconf ∧
    (deviceArgs (conf asym) .unconf 0xE1C1 0 0x12CB).ctx 0 = .conf asym asym.tableOf ∧ asym.Valid ∧
    (deviceArgs (conf asym) .unconf 0xE1C1 0 0x12CB).arg1 = 0 ∧
    (deviceArgs (conf asym) .unconf 0xE1C1 0 0x12CB).arg2 = finalize asym asym.ninit :=
  ⟨rfl, rfl, by decide, rfl, by decide⟩

theorem witness_ShiftReturnsZeroShiftedRegister : State.reset.ctx 0 = .unconf ∧ gsm.Valid ∧
    (both.ctx 0 = .conf gsm gsm.tableOf ∨ ∃ reg len, both.ctx 0 = .active gsm gsm.tableOf reg len) :=
  ⟨rfl, by decide, .inl rfl⟩

/-- Equal descriptors, descriptors that differ in XO alone, and a context that holds none. -/
theorem witness_CompatComparesDescriptors :
    ((device (conf gsm) (active gsm 1 1)).ctx 0).desc? = some gsm ∧
    ((device (conf gsm) (active gsm 1 1)).ctx 1).desc? = some gsm ∧
    ((device (conf gsm) (conf { gsm with xorOut := 0 })).ctx 1).desc? = some { gsm with xorOut := 0 } ∧
    gsm.xorOut ≠ ({ gsm with xorOut := 0 } : Desc).xorOut ∧ State.reset.ctx 1 = .unconf :=
  ⟨rfl, rfl, rfl, by decide, rfl⟩

theorem witness_TblrdReturnsTableEntry : ∃ t, State.reset.ctx 0 = .unconf ∧ (both.ctx 0).Valid ∧
    both.ctx 0 = .conf gsm gsm.tableOf ∧ exec (.tblrd 0 0) both = .next t :=
  (ends _ _).imp fun _ h => ⟨rfl, ⟨by decide, rfl⟩, rfl, h⟩

theorem witness_QueryReturnsSelectedField : (both.ctx 0).phase ≠ .active ∧
    both.ctx 1 = .active asym asym.tableOf 0x2C48 3 ∧
    (fieldOp 0x7000D = 0x0D ∧ 6 < (fieldImm 0x7000D).toNat) := ⟨by decide, rfl, by decide⟩

/-- Every error code is reached. -/
theorem witness_ErrorChangesOnlyStatus :
    (∃ t, commandWrite 0x00080001 (deviceArgs .unconf .unconf 2 0 0) = .next t ∧ t.err = .invalidConfig) ∧
    (∃ t, commandWrite 0x407 (device (active gsm 0 0) (active par1 0 0)) = .next t ∧ t.err = .typeMismatch) ∧
    (∃ t, commandWrite 0x6 State.reset = .next t ∧ t.err = .unsupportedOperation) ∧
    (∃ t, commandWrite 0xF State.reset = .next t ∧ t.err = .illegalCommand) :=
  ⟨⟨_, rfl, rfl⟩, ⟨_, rfl, rfl⟩, ⟨_, rfl, rfl⟩, ⟨_, rfl, rfl⟩⟩

theorem witness_CompletionCodeFollowsPriority : ∃ t, commandWrite 0xF State.reset = .next t := ⟨_, rfl⟩

/-- COMBINE with the source UNCONF. -/
theorem witness_UnconfiguredContextsSupportNothing : (1 : CtxIdx) ∈ contextsOf (.combine 0 1) ∧
    (device (active gsm 1 1) .unconf).ctx 1 = .unconf ∧ (∀ d width ri ro, Instr.combine 0 1 ≠ .config d width ri ro) ∧
    (∀ d src, Instr.combine 0 1 ≠ .compat d src) := ⟨by decide, rfl, by simp, by simp⟩

/-- A sticky bit that is set before and clear after: by a STATUS write, by SRST and by reset. -/
theorem witness_StickyBitsClearOnlyWhenAsked :
    (∃ t, performEvent (.access ⟨0, 0x28, 8, .write 0x800⟩) { State.reset with sticky := 8 } = .next t ∧
      (8 : BitVec 4).getLsbD 3 = true ∧ t.sticky.getLsbD 3 = false) ∧
    (∃ t, performEvent (.access ⟨0, 0, 8, .write 0x0E⟩) { State.reset with sticky := 1 } = .next t ∧
      (1 : BitVec 4).getLsbD 0 = true ∧ t.sticky.getLsbD 0 = false) ∧
    (∃ t, performEvent .assertReset { State.reset with sticky := 2 } = .next t ∧
      (2 : BitVec 4).getLsbD 1 = true ∧ t.sticky.getLsbD 1 = false) :=
  ⟨⟨_, rfl, by decide, by decide⟩, ⟨_, rfl, by decide, by decide⟩, ⟨_, rfl, by decide, by decide⟩⟩

theorem witness_ArgsHoldWhatTheHostLastWrote :
    (∃ t, performEvent (.access ⟨0, 0x18, 8, .write 7⟩) State.reset = .next t ∧ t.arg2 ≠ State.reset.arg2) ∧
    (∃ t, exec .nop State.reset = .next t ∧ Instr.nop ≠ .srst) :=
  ⟨⟨_, rfl, by decide⟩, ⟨_, rfl, by decide⟩⟩

/-- A result command and SRST, as bus events and as commands, and the reset input. -/
theorem witness_ResIsWrittenOnlyByResultCommands :
    (∃ t, performEvent (.access ⟨0, 0, 8, .write 0x10D⟩) both = .next t ∧ t.res ≠ both.res) ∧
    (∃ t, performEvent (.access ⟨0, 0, 8, .write 0x0E⟩) { both with res := 1 } = .next t ∧ t.res ≠ 1) ∧
    (∃ t, performEvent .assertReset { both with res := 1 } = .next t ∧ t.res ≠ 1) ∧
    (∃ t, exec (.query 1 .width) both = .next t ∧ t.res ≠ both.res) ∧
    (∃ t, exec .srst { both with res := 1 } = .next t ∧ t.res ≠ 1) :=
  ⟨⟨_, rfl, by decide⟩, ⟨_, rfl, by decide⟩, ⟨_, rfl, by decide⟩, ⟨_, rfl, by decide⟩, ⟨_, rfl, by decide⟩⟩

theorem witness_ContextStateTransitions : (∃ t, exec (.start 0) both = .next t) ∧
    ∃ t, performEvent .assertReset both = .next t := ⟨ends _ _, ⟨_, rfl⟩⟩

theorem witness_DescriptorIsImmutable : ∃ t, exec .nop both = .next t ∧ (t.ctx 1).desc? = some asym := ⟨_, rfl, rfl⟩

theorem witness_CommandFrame : (∃ t, exec (.updb 1 0x31) both = .next t) ∧ Instr.updb 1 0x31 ≠ .srst ∧
    (Instr.updb 1 0x31).answers = false ∧ ∀ phase, (Instr.updb 1 0x31).loads ≠ some ((0 : CtxIdx), phase) :=
  ⟨ends _ _, by decide, rfl, by simp [Instr.loads]⟩

/-- Two devices that differ in a context that the command does not name. -/
theorem witness_CommandsDependOnlyOnTheirOperands :
    (∃ t, exec (.finish 1) both = .next t ∧ t.err = .ok) ∧ (∃ t, exec (.finish 1) { both with res := 5 } = .next t) ∧
    both.arg0 = ({ both with res := 5 } : State).arg0 ∧
    (∀ c ∈ contextsOf (.finish 1), both.ctx c = ({ both with res := 5 } : State).ctx c) ∧
    (Instr.finish 1).answers = true := ⟨⟨_, rfl, rfl⟩, ends _ _, rfl, fun _ _ => rfl, rfl⟩

/-- The first and the last register of the window, read and written. -/
theorem witness_WindowAccessEffects : State.reset.resetAsserted = false ∧
    (Access.target ⟨0, 0x00, 8, .read⟩ State.reset.cfg = some .cmd ∧
      Access.target ⟨0, 0x38, 8, .write 1⟩ State.reset.cfg = some .reserved) := by decide

/-- The first and the last admitted address, a narrow access, one at offset 4, and the last byte of the window. -/
theorem witness_AdmittedAccesses : State.reset.resetAsserted = false ∧
    (∃ k < 8, (0x38 : Nat) = State.reset.cfg.crcBase + 8 * k) ∧ (∃ k < 8, (0 : Nat) = State.reset.cfg.crcBase + 8 * k) ∧
    (∀ a ∈ [(⟨0, 0, 4, .read⟩ : Access), ⟨0, 4, 8, .read⟩, ⟨0, 0x3F, 1, .read⟩],
      a.addr < State.reset.cfg.crcBase + 0x40 ∧ State.reset.cfg.crcBase < a.addr + a.bytes ∧
        ¬ (a.bytes = 8 ∧ ∃ k < 8, a.addr = State.reset.cfg.crcBase + 8 * k)) := by decide

theorem witness_ResetInputResetsTheDevice :
    (∃ t u, performEvent .assertReset both = .next t ∧ exec .srst both = .next u) ∧
    ({ both with resetAsserted := true } : State).resetAsserted = true := ⟨⟨_, _, rfl, rfl⟩, rfl⟩

theorem witness_IdLayout : (∀ n ∈ [1, 2, 4], (⟨n, 64⟩ : Config).Legal) ∧ State.reset.cfg.nctx = 2 := by decide

theorem witness_StatusWriteClearsOnlyStickyBits : ∃ t, busWrite .status 0xF00 both = .next t := ⟨_, rfl⟩

/-- A pending legal command, and a pending illegal one. -/
theorem witness_StepRunsTheDecodedCommand : State.reset.pending = [] ∧
    (State.reset.withCommand 0x102).pending = .access (commandAccess State.reset.cfg 0x102) :: [] ∧
    (State.reset.withCommand 0x102).resetAsserted = false ∧
    (commandAccess State.reset.cfg 0x102).target State.reset.cfg = some .cmd ∧
    (commandAccess State.reset.cfg 0x102).op = .write 0x102 ∧ decode State.reset.cfg.nctx 0x102 = .ok (.start 1) ∧
    decode State.reset.cfg.nctx 0x202 = .error .contextD := ⟨rfl, rfl, rfl, rfl, rfl, rfl, rfl⟩

/-- A safe state with an event, and a state that is not safe. -/
theorem witness_SafeSteps : Safe (State.reset.withCommand 0x102) ∧
    (faultOf (step { State.reset with pending := [.access ⟨0, 0x100, 8, .read⟩] })).isSome = true :=
  ⟨⟨_, rfl⟩, by decide⟩

theorem witness_MastersAreNotToldApart : (⟨1, 0, 8, .write 0⟩ : Access).op = .write 0 ∧
    (∃ t, (⟨1, 0x30, 8, .read⟩ : Access).op = .read ∧ performAccess ⟨1, 0x30, 8, .read⟩ State.reset = .next t) ∧
    performAccess ⟨1, 0x30, 4, .read⟩ State.reset = .fault .busError := ⟨rfl, ⟨_, rfl, rfl⟩, rfl⟩

/-- A state with the invariant, a context in use, and a command that loads another. -/
theorem witness_StepKeepsTheInvariant : ∃ t, (both.withCommand 0x2).Inv ∧ step (both.withCommand 0x2) = .next t := by
  refine ⟨_, ⟨by decide, ?_, ?_, ?_⟩, rfl⟩
  · intro c
    match c with
    | 0 => exact (⟨by decide, rfl⟩ : (conf gsm).Valid)
    | 1 => exact (⟨by decide, rfl, by decide⟩ : (active asym 0x2C48 3).Valid)
    | 2 => exact True.intro
    | 3 => exact True.intro
  · intro c h
    match c with
    | 0 => exact absurd h (by decide)
    | 1 => exact absurd h (by decide)
    | 2 => rfl
    | 3 => rfl
  · intro h
    exact absurd h (by decide)

theorem witness_ResetHasTheInvariant : (⟨1, 0⟩ : Config).Legal ∧ (⟨4, 64⟩ : Config).Legal := by decide

theorem witness_DecodeOfEncode : (Instr.compat 3 0).wf 4 = true := by decide

theorem witness_EncodeOfDecode : decode 2 0x000000000006000D = .ok (.query 0 .len) := rfl

theorem witness_IllegalEncodings : ∃ x, decode State.reset.cfg.nctx 0x1002 = .error x := ⟨_, rfl⟩

/-- The least and the greatest N, with all bits set. -/
theorem witness_ReversalReversesBits : (1 ≤ 1 ∧ Fits 1 1) ∧ (64 ≤ 64 ∧ Fits 64 0xFFFFFFFFFFFFFFFF) := by decide

theorem witness_BitStepsDivide : (1 ≤ 1 ∧ Fits 1 1 ∧ Fits 1 0) ∧ (64 ≤ 64 ∧ Fits 64 0x42F0E1EBA9EA3693) := by decide

theorem witness_TableLaws : ∀ w ∈ [1, 8, 64], 1 ≤ w ∧ w ≤ 64 ∧ Fits w 1 ∧ (1 : Word).getLsbD 0 = true := by decide

/-- Reflected; normal with the least wide width; normal with the greatest narrow width. -/
theorem witness_TableUpdateIsBitSerialUpdate :
    (xz.Valid ∧ Fits xz.width 0xFFFFFFFFFFFFFFFF ∧ xz.refIn = true) ∧
    ((⟨8, 0xFF, 0, false, false, 0⟩ : Desc).Valid ∧ Fits 8 0xFF) ∧
    ((⟨7, 0x09, 0, false, false, 0⟩ : Desc).Valid ∧ Fits 7 0x7F) := by decide

theorem witness_StreamingLaw : both.ctx 1 = .active asym asym.tableOf 0x2C48 3 := rfl

theorem witness_LinearityLaw : gsm.Valid ∧ Fits gsm.width 7 ∧ ([0x31, 0x32] : List Byte).length < 2 ^ 64 := by decide

theorem witness_ZeroShiftRunsZeroBytes : gsm.Valid ∧ Fits gsm.width 7 ∧ Fits gsm.width 1 ∧
    (0xFFFFFFFFFFFFFFFE : Word).toNat + (1 : Word).toNat < 2 ^ 64 := by decide

theorem witness_ZeroShiftMultipliesByPowerOfX : (gsm.Valid ∧ Fits gsm.width 7) ∧ (xz.Valid ∧ Fits xz.width 1) := by decide

/-- W = 1, and CRC-3/GSM with its period 7 of L2.3.1, which is below 2^3. -/
theorem witness_ZeroShiftIsPeriodic : (par1.Valid ∧ par1.width = 1 ∧ Fits 1 1) ∧
    (gsm.Valid ∧ Fits gsm.width 5 ∧ (9 : Word).toNat = (2 : Word).toNat + 7) := by decide

theorem witness_FinalizeAndUnfinalizeAreInverse : (asym.Valid ∧ Fits asym.width 0xFFFF ∧ asym.refIn ≠ asym.refOut) ∧
    (crc32.Valid ∧ Fits crc32.width 0 ∧ crc32.refIn = crc32.refOut) := by decide

theorem witness_CombineRawIsConcatenation : asym.Valid ∧ Fits asym.width 0x7C87 ∧ ([0x77, 0x6F] : List Byte).length < 2 ^ 64 := by decide

theorem witness_CombineFinIsConcatenation : asym.Valid ∧ ([] : List Byte).length < 2 ^ 64 := by decide

/-- A source that has consumed one byte since START. -/
theorem witness_CombinationLaws : ∃ t, gsm.Valid ∧ Fits gsm.width 1 ∧ ([0x31] : List Byte).length < 2 ^ 64 ∧
    (device (active gsm 1 4) (active gsm (runBytes gsm gsm.tableOf gsm.ninit [0x31]) 1)).ctx 0 =
      .active gsm gsm.tableOf 1 4 ∧
    (device (active gsm 1 4) (active gsm (runBytes gsm gsm.tableOf gsm.ninit [0x31]) 1)).ctx 1 =
      .active gsm gsm.tableOf (runBytes gsm gsm.tableOf gsm.ninit [0x31])
        (BitVec.ofNat 64 ([0x31] : List Byte).length) ∧
    exec (.combine 0 1) (device (active gsm 1 4) (active gsm (runBytes gsm gsm.tableOf gsm.ninit [0x31]) 1)) =
      .next t :=
  (ends _ _).imp fun _ h => ⟨by decide, by decide, by decide, rfl, rfl, h⟩

theorem witness_EmptyInputLaw : ∃ t u, gsm.Valid ∧ both.ctx 0 = .conf gsm gsm.tableOf ∧
    exec (.start 0) both = .next t ∧ exec (.finish 0) t = .next u := by
  obtain ⟨t, ht⟩ := ends (.start 0) both
  obtain ⟨u, hu⟩ := ends (.finish 0) t
  exact ⟨t, u, by decide, rfl, ht, hu⟩

/-- From CONF, and from ACTIVE. -/
theorem witness_CrcProgramReturnsTheChecksum : both.resetAsserted = false ∧
    (gsm.Valid ∧ (0 : CtxIdx).val < both.cfg.nctx ∧ both.ctx 0 = .conf gsm gsm.tableOf) ∧
    (asym.Valid ∧ (1 : CtxIdx).val < both.cfg.nctx ∧
      ∃ reg len, both.ctx 1 = .active asym asym.tableOf reg len) :=
  ⟨rfl, ⟨by decide, by decide, rfl⟩, ⟨by decide, by decide, _, _, rfl⟩⟩

theorem witness_DigestsSpellTheChecksum : (1 ≤ 1 ∧ Fits 1 1) ∧ (64 ≤ 64 ∧ Fits 64 0x995DC9BBDF1939FA) := by decide

end Sys2Proof.Tests
end

/-! SUPPORT. What the decoder accepts: the conditions of R83, and that a decoded command names only contexts that exist. -/

namespace Sys2Proof

/-- Everything the decoder checks (R83), read off a value that it accepts. -/
theorem decode_ok {n : Nat} {v : Word} {i : Instr} (h : decode n v = .ok i) :
    fieldZhi v = 0 ∧ fieldRsv1 v = 0 ∧ fieldRsv0 v = 0 ∧
      ∃ op, Opcode.ofByte (fieldOp v) = some op ∧ unusedFieldSet op.uses v = false ∧
        (op.uses.d = true → (fieldD v).val < n) ∧ (op.uses.s = true → (fieldS v).val < n) ∧
        buildInstr op v = .ok i := by
  unfold decode at h
  split_ifs at h with hz h1 h0
  cases hop : Opcode.ofByte (fieldOp v) with
  | none => simp [hop] at h
  | some op =>
    simp only [hop] at h
    split_ifs at h with hu hd hs
    refine ⟨not_not.mp hz, not_not.mp h1, not_not.mp h0, op, rfl, by simpa using hu, ?_, ?_, h⟩
    · intro hud
      simpa [hud] using hd
    · intro hus
      simpa [hus] using hs

/-- A command's context numbers are the fields D and S of its word, where its row uses them (R82). -/
theorem buildInstr_wf {op : Opcode} {n : Nat} {v : Word} {i : Instr} (h : buildInstr op v = .ok i)
    (hd : op.uses.d = true → (fieldD v).val < n) (hs : op.uses.s = true → (fieldS v).val < n) :
    i.wf n = true := by
  cases op with
  | nop | srst =>
    cases h
    rfl
  | combine | compat =>
    cases h
    simp [Instr.wf, hd rfl, hs rfl]
  | updd | query =>
    simp only [buildInstr] at h
    split at h <;> cases h
    simpa [Instr.wf] using hd rfl
  | config | start | resume | updb | finish | combv | combf | shift | tblrd =>
    cases h
    simpa [Instr.wf] using hd rfl

/-- "ctx" in R82 means a context that exists (R83). -/
theorem decode_wf {n : Nat} {v : Word} {i : Instr} (h : decode n v = .ok i) : i.wf n = true := by
  obtain ⟨-, -, -, op, -, -, hd, hs, hb⟩ := decode_ok h
  exact buildInstr_wf hb hd hs

/-- The context that a well-formed command loads exists. -/
theorem Instr.loads_lt {n : Nat} {i : Instr} {d : CtxIdx} {ph : Machine.Phase} (hwf : i.wf n = true)
    (h : i.loads = some (d, ph)) : d.val < n := by
  cases i with
  | nop | finish | combf | shift | compat | tblrd | query | srst => cases h
  | combine =>
    cases h
    simp only [Instr.wf, Bool.and_eq_true, decide_eq_true_eq] at hwf
    exact hwf.left
  | config | start | resume | updb | updd | combv =>
    cases h
    simpa [Instr.wf] using hwf

end Sys2Proof

/-! SUPPORT. The descriptor's functions keep W bits at W bits, and validation gives a valid descriptor (R30, R32, R100). -/

namespace Sys2Proof.Machine

theorem validate_valid {width : Byte} {p i x : Word} {ri ro : Bool} {d : Desc}
    (h : validate width p i ri ro x = some d) : d.Valid := by
  simp only [validate] at h
  split_ifs at h with hw hodd
  cases h
  have hwidth : 1 ≤ width.toNat ∧ width.toNat ≤ 64 := by omega
  exact ⟨hwidth.left, hwidth.right, fits_truncTo _ _, by simpa using hodd, fits_truncTo _ _,
    fits_truncTo _ _⟩

section Fits

variable {d : Desc} (hd : d.Valid)
include hd

theorem fits_ninit : Fits d.width d.ninit := by
  obtain ⟨-, hw, -, -, hinit, -⟩ := hd
  unfold Desc.ninit
  split
  · exact fits_rev hw _
  · exact hinit

theorem fits_unfinalize {c : Word} (hc : Fits d.width c) : Fits d.width (unfinalize d c) := by
  obtain ⟨-, hw, -, -, -, hxor⟩ := hd
  unfold unfinalize
  split
  · exact fits_rev hw _
  · exact fits_xor hc hxor

theorem fits_entry_tableOf (c : Byte) : Fits d.width (d.tableOf.entry c) := by
  obtain ⟨-, hw, hpoly, -, -, -⟩ := hd
  rw [Desc.tableOf, entry_tableOf]
  exact fits_byteStep hw _ hpoly (fits_zero _) c

theorem fits_update1 {r : Word} (hr : Fits d.width r) (c : Byte) : Fits d.width (update1 d d.tableOf r c) := by
  unfold update1
  split_ifs
  · exact fits_xor (fits_entry_tableOf hd _) (fits_shiftRight _ hr)
  · exact fits_xor (fits_entry_tableOf hd _) (fits_truncTo _ _)
  · exact fits_entry_tableOf hd _

theorem fits_runBytes {r : Word} (hr : Fits d.width r) (bytes : List Byte) :
    Fits d.width (runBytes d d.tableOf r bytes) := by
  unfold runBytes
  induction bytes generalizing r with
  | nil => exact hr
  | cons c bytes ih => exact ih (fits_update1 hd hr c)

theorem fits_mulVec_zeroBitMatrix {r : Word} (hr : Fits d.width r) :
    Fits d.width (mulVec (zeroBitMatrix d) r) := by
  obtain ⟨-, hw, hpoly, -, -, -⟩ := hd
  rw [mulVec_zeroBitMatrix hw hr]
  exact fits_stepBit hw _ hpoly hr _

theorem fits_zeroShift {r : Word} (hr : Fits d.width r) (n : Word) : Fits d.width (zeroShift d r n) := by
  have hfuel : 8 * n.toNat < 2 ^ 67 := by have := n.isLt; omega
  rw [zeroShift, powerApply_eq_iterate _ _ _ _ hfuel]
  exact Function.Iterate.rec (fun v => Fits d.width v) hr (fun _ => fits_mulVec_zeroBitMatrix hd) _

theorem fits_combineRaw {rA rB : Word} (hA : Fits d.width rA) (hB : Fits d.width rB) (n : Word) :
    Fits d.width (combineRaw d rA n rB) :=
  fits_xor (fits_zeroShift hd (fits_xor hA (fits_ninit hd)) n) hB

end Fits

/-- `Compatible` (R113) is that both contexts hold a descriptor, the same one. -/
theorem compatible_iff {a b : Context} : compatible a b = true ↔ ∃ d, a.desc? = some d ∧ b.desc? = some d := by
  unfold compatible
  cases a.desc? with
  | none => simp
  | some x =>
    cases b.desc? with
    | none => simp
    | some y =>
      have hsame : (∃ d, some x = some d ∧ some y = some d) ↔ x = y := by simp [eq_comm]
      rw [hsame]
      cases x
      cases y
      simp [and_assoc]

end Sys2Proof.Machine

/-! SUPPORT. Commands keep every context valid (R30 to R32): one rule per shared operation, then the commands. -/

namespace Sys2Proof.Machine

/-- Every context of the next state, if there is one, is valid. -/
def LeavesValid (r : Result) : Prop := ∀ t, r = .next t → ∀ c, (t.ctx c).Valid

section Rules

variable {s : State} (hs : ∀ c, (s.ctx c).Valid)
include hs

theorem leavesValid_of_ctxs_eq {t : State} (h : t.ctxs = s.ctxs) : LeavesValid (.next t) := by
  rintro _ ⟨⟩ c
  rw [State.ctx_eq_of_ctxs_eq h]
  exact hs c

theorem leavesValid_raiseError (e : ErrCode) : LeavesValid (raiseError e s) := leavesValid_of_ctxs_eq hs rfl

theorem leavesValid_succeed_setRes (v : Word) : LeavesValid (succeed (s.setRes v)) := leavesValid_of_ctxs_eq hs rfl

theorem leavesValid_succeed_setCtx (d : CtxIdx) {x : Context} (hx : x.Valid) :
    LeavesValid (succeed (s.setCtx d x)) := by
  rintro _ ⟨⟩ c
  show ((s.setCtx d x).ctx c).Valid
  rw [State.ctx_setCtx]
  split
  · exact hx
  · exact hs c

/-- The body of a command that needs a descriptor runs on a valid descriptor and its own table. -/
theorem leavesValid_withVariant {c : CtxIdx} {body : Desc → Table → Result}
    (hbody : ∀ d, d.Valid → LeavesValid (body d d.tableOf)) : LeavesValid (withVariant c s body) := by
  have hc := hs c
  obtain ⟨-, e⟩ | ⟨d, t, hctx, e⟩ := withVariant_cases c s body <;> rw [e]
  · exact leavesValid_raiseError hs _
  · obtain ⟨hd, rfl⟩ : d.Valid ∧ t = d.tableOf := by
      obtain h | ⟨reg, len, h⟩ := hctx <;> rw [h] at hc
      · exact hc
      · exact ⟨hc.1, hc.2.1⟩
    exact hbody d hd

/-- The body of a command that needs ACTIVE runs on a valid descriptor, its own table and a register of W bits. -/
theorem leavesValid_withInstance {c : CtxIdx} {body : Desc → Table → Word → Word → Result}
    (hbody : ∀ d reg len, s.ctx c = .active d d.tableOf reg len → d.Valid → Fits d.width reg →
      LeavesValid (body d d.tableOf reg len)) : LeavesValid (withInstance c s body) := by
  have hc := hs c
  obtain ⟨-, e⟩ | ⟨d, t, reg, len, hctx, e⟩ := withInstance_cases c s body <;> rw [e]
  · exact leavesValid_raiseError hs _
  · rw [hctx] at hc
    obtain ⟨hd, rfl, hreg⟩ := hc
    exact hbody d reg len hctx hd hreg

/-- Loading a context with an accumulator of W bits. -/
theorem leavesValid_loadActive (c : CtxIdx) {d : Desc} {reg : Word} (hd : d.Valid) (hreg : Fits d.width reg)
    (len : Word) : LeavesValid (succeed (s.setCtx c (.active d d.tableOf reg len))) :=
  leavesValid_succeed_setCtx hs c ⟨hd, rfl, hreg⟩

theorem leavesValid_execConfig (d : CtxIdx) (width : Byte) (ri ro : Bool) :
    LeavesValid (execConfig d width ri ro s) := by
  unfold execConfig
  split
  · exact leavesValid_raiseError hs _
  · next desc hdesc => exact leavesValid_succeed_setCtx hs d ⟨validate_valid hdesc, rfl⟩

/-- COMBINE: compatible contexts have one width, so the sum of their registers has W bits. -/
theorem leavesValid_execCombine (d src : CtxIdx) : LeavesValid (execCombine d src s) := by
  refine leavesValid_withInstance hs fun desc regA lenA hctxA hd hA =>
    leavesValid_withInstance hs fun descB regB lenB hctxB _ hB => ?_
  split
  · next hcompat =>
    obtain ⟨_, hdescA, hdescB⟩ := compatible_iff.mp hcompat
    rw [hctxA] at hdescA
    rw [hctxB] at hdescB
    cases hdescA
    cases hdescB
    exact leavesValid_loadActive hs d hd (fits_combineRaw hd hA hB lenB) _
  · exact leavesValid_raiseError hs _

theorem leavesValid_exec (i : Instr) : LeavesValid (exec i s) := by
  cases i with
  | nop => exact leavesValid_of_ctxs_eq hs rfl
  | config d width ri ro => exact leavesValid_execConfig hs d width ri ro
  | start d =>
    exact leavesValid_withVariant hs fun desc hd => leavesValid_loadActive hs d hd (fits_ninit hd) 0
  | resume d =>
    exact leavesValid_withVariant hs fun desc hd =>
      leavesValid_loadActive hs d hd (fits_unfinalize hd (fits_truncTo _ _)) 0
  | updb d c =>
    exact leavesValid_withInstance hs fun desc reg len _ hd hreg =>
      leavesValid_loadActive hs d hd (fits_update1 hd hreg c) _
  | updd d n =>
    exact leavesValid_withInstance hs fun desc reg len _ hd hreg =>
      leavesValid_loadActive hs d hd (fits_runBytes hd hreg _) _
  | finish d => exact leavesValid_withInstance hs fun _ _ _ _ _ _ => leavesValid_succeed_setRes hs _
  | combine d src => exact leavesValid_execCombine hs d src
  | combv d =>
    exact leavesValid_withInstance hs fun desc reg len _ hd hreg =>
      leavesValid_loadActive hs d hd
        (fits_combineRaw hd hreg (fits_unfinalize hd (fits_truncTo _ _)) s.arg1) _
  | combf d => exact leavesValid_withVariant hs fun _ _ => leavesValid_succeed_setRes hs _
  | shift d => exact leavesValid_withVariant hs fun _ _ => leavesValid_succeed_setRes hs _
  | compat d src => exact leavesValid_succeed_setRes hs _
  | tblrd d k => exact leavesValid_withVariant hs fun _ _ => leavesValid_succeed_setRes hs _
  | query d q => exact leavesValid_withInstance hs fun _ _ _ _ _ _ => leavesValid_succeed_setRes hs _
  | srst =>
    rintro _ ⟨⟩ c
    show (s.deviceReset.ctx c).Valid
    rw [State.ctx_deviceReset]
    exact True.intro

end Rules

end Sys2Proof.Machine

/-! SUPPORT. The invariant of the machine holds at reset and is kept by a command, a bus write, an access, an event and a
step. A reset level that is asserted admits no access, so the clause about it matters to the reset events alone. -/

namespace Sys2Proof.Machine

/-- With no context in use the invariant asks only for legal parameters and the reset level's clause. -/
theorem inv_of_unconf {s : State} (hlegal : s.cfg.Legal) (hctx : ∀ c, s.ctx c = .unconf)
    (hheld : s.resetAsserted = true → s.AtReset) : s.Inv :=
  ⟨hlegal, fun c => by rw [hctx c]; exact True.intro, fun c _ => hctx c, hheld⟩

theorem inv_resetOf {cfg : Config} (h : cfg.Legal) : (State.resetOf cfg).Inv :=
  inv_of_unconf h (State.ctx_resetOf cfg) nofun

/-- The reset effect at either level of the reset input (R230). -/
theorem inv_deviceReset {s : State} (h : s.cfg.Legal) (level : Bool) :
    { s.deviceReset with resetAsserted := level }.Inv :=
  inv_of_unconf h (State.ctx_deviceReset s) fun _ => ⟨rfl, rfl, rfl, rfl, rfl, rfl, rfl⟩

/-- What leaves the parameters and the contexts alone keeps the invariant, while reset is released. -/
theorem inv_of_ctxs_eq {s t : State} (h : s.Inv) (hcfg : t.cfg = s.cfg) (hctxs : t.ctxs = s.ctxs)
    (hr : t.resetAsserted = false) : t.Inv := by
  have hctx := State.ctx_eq_of_ctxs_eq hctxs
  refine ⟨hcfg ▸ h.legal, fun c => hctx c ▸ h.valid c, fun c hc => ?_, fun hr' => ?_⟩
  · rw [hctx c]
    exact h.absent c (hcfg ▸ hc)
  · simp [hr] at hr'

theorem exec_keeps_inv {i : Instr} {s t : State} (h : s.Inv) (hr : s.resetAsserted = false)
    (hwf : i.wf s.cfg.nctx = true) (he : exec i s = .next t) : t.Inv := by
  have hvalid := leavesValid_exec h.valid i t he
  obtain ⟨e, -, rfl⟩ | ⟨d, x, hload, rfl⟩ | ⟨v, -, rfl⟩ | ⟨-, rfl⟩ | ⟨-, rfl⟩ := exec_next he
  · exact inv_of_ctxs_eq h rfl rfl hr
  · refine ⟨h.legal, hvalid, fun c hc => ?_, fun hr' => by simp [hr] at hr'⟩
    have hne : c ≠ d := by
      rintro rfl
      exact absurd (Instr.loads_lt hwf hload) (Nat.not_lt.mpr hc)
    show (s.setCtx d x).ctx c = .unconf
    rw [State.ctx_setCtx_of_ne s x hne]
    exact h.absent c hc
  · exact inv_of_ctxs_eq h rfl rfl hr
  · exact inv_of_ctxs_eq h rfl rfl hr
  · exact inv_of_unconf h.legal (State.ctx_deviceReset s) fun hr' => by simp [hr] at hr'

theorem commandWrite_keeps_inv {v : Word} {s t : State} (h : s.Inv) (hr : s.resetAsserted = false)
    (hw : commandWrite v s = .next t) : t.Inv := by
  obtain ⟨i, hdecode, he⟩ | ⟨-, -, rfl⟩ := commandWrite_next hw
  · exact exec_keeps_inv h hr (decode_wf hdecode) he
  · exact inv_of_ctxs_eq h rfl rfl hr

theorem busWrite_keeps_inv {r : WinReg} {v : Word} {s t : State} (h : s.Inv) (hr : s.resetAsserted = false)
    (hw : busWrite r v s = .next t) : t.Inv := by
  cases r with
  | cmd => exact commandWrite_keeps_inv h hr hw
  | arg0 | arg1 | arg2 | res | status | id | reserved =>
    cases hw
    exact inv_of_ctxs_eq h rfl rfl hr

theorem performAccess_keeps_inv {a : Access} {s t : State} (h : s.Inv) (ha : performAccess a s = .next t) :
    t.Inv := by
  obtain ⟨hr, r, -, ⟨-, rfl⟩ | ⟨v, -, hw⟩⟩ := performAccess_next ha
  · exact inv_of_ctxs_eq h rfl rfl hr
  · exact busWrite_keeps_inv h hr hw

theorem performEvent_keeps_inv {e : BusEvent} {s t : State} (h : s.Inv) (he : performEvent e s = .next t) :
    t.Inv := by
  cases e with
  | access a => exact performAccess_keeps_inv h he
  | assertReset =>
    cases he
    exact inv_deviceReset h.legal true
  | releaseReset =>
    cases he
    exact inv_of_ctxs_eq h rfl rfl rfl

theorem step_keeps_inv {s t : State} (h : s.Inv) (hstep : step s = .next t) : t.Inv := by
  obtain ⟨-, rfl⟩ | ⟨e, rest, -, he⟩ := step_next hstep
  · exact h
  · have hrest : { s with pending := rest }.Inv := ⟨h.legal, h.valid, h.absent, h.held⟩
    exact performEvent_keeps_inv hrest he

end Sys2Proof.Machine

/-! SUPPORT. The obligations about the scope: the invariant at reset and along every step, and bit reversal. -/

namespace Sys2Proof.Proofs

open Sys2Proof.Machine

/-- Settles O37, by following a step down to the command that it runs. -/
theorem stepKeepsTheInvariant : Obligations.StepKeepsTheInvariant := by
  intro s t h hstep
  exact step_keeps_inv h hstep

/-- Settles O43, from the bits of a reversed word. -/
theorem reversalReversesBits : Obligations.ReversalReversesBits := by
  intro n v _ hn hv
  refine ⟨fits_rev hn v, fun i hi => ?_, rev_rev hn hv⟩
  simp [getLsbD_rev hn, hi]

/-- Settles O38. -/
theorem resetHasTheInvariant : Obligations.ResetHasTheInvariant :=
  ⟨fun _ h => inv_resetOf h, inv_resetOf (by decide)⟩

end Sys2Proof.Proofs

/-! SUPPORT. The commands' frame (R20, R23 to R25): each fact about a field is read off the five shapes that a command's
next state can have (`exec_next`). -/

namespace Sys2Proof.Machine

@[simp] theorem or_stickyBit_ok (sticky : BitVec 4) : sticky ||| ErrCode.ok.stickyBit = sticky :=
  BitVec.or_zero

section Frame

variable {i : Instr} {s t : State} (h : exec i s = .next t)
include h

/-- A command touches neither the parameters nor what the model holds of the device's surroundings. -/
theorem exec_keeps_surroundings :
    t.cfg = s.cfg ∧ t.resetAsserted = s.resetAsserted ∧ t.pending = s.pending ∧ t.replies = s.replies := by
  obtain ⟨e, -, rfl⟩ | ⟨d, x, -, rfl⟩ | ⟨v, -, rfl⟩ | ⟨-, rfl⟩ | ⟨-, rfl⟩ := exec_next h <;>
    exact ⟨rfl, rfl, rfl, rfl⟩

theorem exec_keeps_args (hi : i ≠ .srst) : t.arg0 = s.arg0 ∧ t.arg1 = s.arg1 ∧ t.arg2 = s.arg2 := by
  obtain ⟨e, -, rfl⟩ | ⟨d, x, -, rfl⟩ | ⟨v, -, rfl⟩ | ⟨-, rfl⟩ | ⟨hsrst, -⟩ := exec_next h
  · exact ⟨rfl, rfl, rfl⟩
  · exact ⟨rfl, rfl, rfl⟩
  · exact ⟨rfl, rfl, rfl⟩
  · exact ⟨rfl, rfl, rfl⟩
  · exact absurd hsrst hi

/-- The sticky bit of the completion code is set and no other changes; success has none. -/
theorem exec_sticky (hi : i ≠ .srst) : t.sticky = s.sticky ||| t.err.stickyBit := by
  obtain ⟨e, -, rfl⟩ | ⟨d, x, -, rfl⟩ | ⟨v, -, rfl⟩ | ⟨-, rfl⟩ | ⟨hsrst, -⟩ := exec_next h
  · rfl
  · exact (or_stickyBit_ok _).symm
  · exact (or_stickyBit_ok _).symm
  · exact (or_stickyBit_ok _).symm
  · exact absurd hsrst hi

/-- RES after a command: as before, or the result of a command that answers and succeeded, or cleared by SRST (R24). -/
theorem exec_res : t.res = s.res ∨ (i.answers = true ∧ t.err = .ok) ∨ (i = .srst ∧ t.res = 0) := by
  obtain ⟨e, -, rfl⟩ | ⟨d, x, -, rfl⟩ | ⟨v, ha, rfl⟩ | ⟨-, rfl⟩ | ⟨hsrst, rfl⟩ := exec_next h
  · exact .inl rfl
  · exact .inl rfl
  · exact .inr (.inl ⟨ha, rfl⟩)
  · exact .inl rfl
  · exact .inr (.inr ⟨hsrst, rfl⟩)

/-- Only the context that the command loads changes. -/
theorem exec_ctx_of_not_loaded (hi : i ≠ .srst) {c : CtxIdx} (hc : ∀ ph, i.loads ≠ some (c, ph)) :
    t.ctx c = s.ctx c := by
  obtain ⟨e, -, rfl⟩ | ⟨d, x, hload, rfl⟩ | ⟨v, -, rfl⟩ | ⟨-, rfl⟩ | ⟨hsrst, -⟩ := exec_next h
  · rfl
  · have hne : c ≠ d := by
      rintro rfl
      exact hc _ hload
    exact State.ctx_setCtx_of_ne s x hne
  · rfl
  · rfl
  · exact absurd hsrst hi

end Frame

/-- The six commands that answer (R24). -/
theorem answers_cases {i : Instr} (h : i.answers = true) :
    (∃ d, i = .finish d) ∨ (∃ d, i = .combf d) ∨ (∃ d, i = .shift d) ∨ (∃ d src, i = .compat d src) ∨
      (∃ d k, i = .tblrd d k) ∨ (∃ d q, i = .query d q) := by
  cases i with
  | finish | combf | shift | compat | tblrd | query => simp
  | nop | config | start | resume | updb | updd | combine | combv | srst => cases h

end Sys2Proof.Machine

/-! SUPPORT. What a performed bus event can do to the registers, and which CMD value is SRST. -/

namespace Sys2Proof

/-- A value that decodes to a command is the encoding of that command: its fields are those of the command and the
fields that its row does not use are zero (R83, R86). -/
theorem encode_of_decode {n : Nat} {v : Word} {i : Instr} (h : decode n v = .ok i) : encode i = v := by
  obtain ⟨hz, h1, h0, op, hop, hunused, -, -, hbuild⟩ := decode_ok h
  refine Eq.trans ?_ (commandWord_of_fields hz h1 h0)
  rw [← Opcode.code_of_ofByte hop]
  cases op with
  | updd =>
    simp only [buildInstr] at hbuild
    split at hbuild <;> cases hbuild
    simp_all [unusedFieldSet, Opcode.uses, encode]
  | query =>
    simp only [buildInstr] at hbuild
    split at hbuild <;> cases hbuild
    next q hq =>
    simp_all [unusedFieldSet, Opcode.uses, encode, Selector.code_of_ofByte hq]
  | nop | srst | config | start | resume | updb | finish | combine | combv | combf | shift | compat | tblrd =>
    cases hbuild
    simp_all [unusedFieldSet, Opcode.uses, encode]

end Sys2Proof

namespace Sys2Proof.Machine

/-- A performed event asserted reset, or wrote a register of the window, or left every register as it was (a read,
or releasing reset). -/
theorem performEvent_next {e : BusEvent} {s t : State} (h : performEvent e s = .next t) :
    (e = .assertReset ∧ t = { s.deviceReset with resetAsserted := true }) ∨
    (∃ a v r, e = .access a ∧ a.op = .write v ∧ a.target s.cfg = some r ∧ busWrite r v s = .next t) ∨
    ∃ level replies, t = { s with resetAsserted := level, replies := replies } := by
  cases e with
  | access a =>
    obtain ⟨-, r, htarget, ⟨-, rfl⟩ | ⟨v, hop, hw⟩⟩ := performAccess_next h
    · exact .inr (.inr ⟨_, _, rfl⟩)
    · exact .inr (.inl ⟨a, v, r, rfl, hop, htarget, hw⟩)
  | assertReset =>
    cases h
    exact .inl ⟨rfl, rfl⟩
  | releaseReset =>
    cases h
    exact .inr (.inr ⟨_, _, rfl⟩)

theorem step_of_pending {s : State} {e : BusEvent} {rest : List BusEvent} (hp : s.pending = e :: rest) :
    step s = performEvent e { s with pending := rest } := by
  simp only [step, performPending, hp]

/-- When the oldest event is an admitted CMD write, the step is that command write (R22, R61). -/
theorem step_of_cmdWrite {s : State} {a : Access} {rest : List BusEvent} {v : Word}
    (hp : s.pending = .access a :: rest) (hr : s.resetAsserted = false) (htarget : a.target s.cfg = some .cmd)
    (hop : a.op = .write v) : step s = commandWrite v { s with pending := rest } := by
  rw [step_of_pending hp]
  simp [performEvent, performAccess, hr, htarget, hop, busWrite]

/-- A CMD write that is not SRST leaves ARG0 to ARG2 and clears no sticky bit (R23, R25). -/
theorem commandWrite_frame {v : Word} {s t : State} (h : commandWrite v s = .next t) (hv : v ≠ 0x0E) :
    (t.arg0 = s.arg0 ∧ t.arg1 = s.arg1 ∧ t.arg2 = s.arg2) ∧ t.sticky = s.sticky ||| t.err.stickyBit := by
  obtain ⟨i, hdecode, he⟩ | ⟨_, -, rfl⟩ := commandWrite_next h
  · have hi : i ≠ .srst := by
      rintro rfl
      exact hv (encode_of_decode hdecode).symm
    exact ⟨exec_keeps_args he hi, exec_sticky he hi⟩
  · exact ⟨⟨rfl, rfl, rfl⟩, rfl⟩

end Sys2Proof.Machine

/-! SUPPORT. STATE and DESC of every context after a command (R28, R29). CONFIG replaces both, SRST clears both, START and
RESUME make ACTIVE of a context that has a descriptor; every other command keeps both. -/

namespace Sys2Proof.Machine

theorem desc?_isSome_iff (x : Context) : x.desc?.isSome = true ↔ x.phase ≠ .unconf := by
  cases x <;> simp [Context.desc?, Context.phase]

/-- What validation accepts it stores masked to the width (R100). -/
theorem eq_of_validate {width : Byte} {p init x : Word} {ri ro : Bool} {d : Desc}
    (h : validate width p init ri ro x = some d) :
    d = { width := width.toNat
          poly := p &&& BitVec.ofNat 64 (2 ^ width.toNat - 1)
          init := init &&& BitVec.ofNat 64 (2 ^ width.toNat - 1)
          refIn := ri
          refOut := ro
          xorOut := x &&& BitVec.ofNat 64 (2 ^ width.toNat - 1) } := by
  simp only [validate] at h
  split_ifs at h
  cases h
  simp only [truncTo_eq_and]

/-- CONFIG raises InvalidConfig, or loads the whole descriptor and succeeds (R106). -/
theorem execConfig_next {d : CtxIdx} {width : Byte} {ri ro : Bool} {s t : State}
    (h : execConfig d width ri ro s = .next t) :
    (t.err = .invalidConfig ∧ t.ctxs = s.ctxs) ∨
      ∃ desc, validate width s.arg0 s.arg1 ri ro s.arg2 = some desc ∧
        t = { s.setCtx d (.conf desc desc.tableOf) with err := .ok } := by
  unfold execConfig at h
  split at h
  · cases h
    exact .inl ⟨rfl, rfl⟩
  · next desc hdesc => exact .inr ⟨desc, hdesc, succeed_next.mp h⟩

/-- START and RESUME: a context with a descriptor becomes ACTIVE and keeps the descriptor (R107, R109). -/
theorem withVariant_load_next {d : CtxIdx} {s t : State} {reg : Desc → Word}
    (h : withVariant d s (fun desc table => succeed (s.setCtx d (.active desc table (reg desc) 0))) = .next t)
    (c : CtxIdx) :
    (t.ctx c).phase = (if d = c ∧ (s.ctx c).phase ≠ .unconf then .active else (s.ctx c).phase) ∧
      (t.ctx c).desc? = (s.ctx c).desc? := by
  obtain ⟨hd, e⟩ | ⟨desc, table, hd, e⟩ := withVariant_cases d s
      (fun desc table => succeed (s.setCtx d (.active desc table (reg desc) 0))) <;> rw [e] at h <;> cases h
  · refine ⟨?_, rfl⟩
    rw [if_neg]
    · rfl
    · rintro ⟨rfl, hphase⟩
      exact hphase (by rw [hd]; rfl)
  · change ((s.setCtx d _).ctx c).phase = _ ∧ ((s.setCtx d _).ctx c).desc? = _
    by_cases hcd : d = c
    · subst hcd
      obtain hd | ⟨_, _, hd⟩ := hd <;> simp [hd, Context.phase, Context.desc?]
    · simp [State.ctx_setCtx_of_ne s _ (Ne.symm hcd), hcd]

/-- Every context of the next state has the STATE and the descriptor that it had. -/
def KeepsShape (s : State) (r : Result) : Prop :=
  ∀ t, r = .next t → ∀ c, (t.ctx c).phase = (s.ctx c).phase ∧ (t.ctx c).desc? = (s.ctx c).desc?

section Shape

variable {s : State}

theorem keepsShape_raiseError (e : ErrCode) : KeepsShape s (raiseError e s) := by
  rintro _ ⟨⟩ c
  exact ⟨rfl, rfl⟩

/-- An accumulator that moves on. -/
theorem keepsShape_accumulate {d : CtxIdx} {desc : Desc} {table : Table} {reg len : Word}
    (h : s.ctx d = .active desc table reg len) (reg' len' : Word) :
    KeepsShape s (succeed (s.setCtx d (.active desc table reg' len'))) := by
  rintro _ ⟨⟩ c
  change ((s.setCtx d _).ctx c).phase = _ ∧ ((s.setCtx d _).ctx c).desc? = _
  by_cases hcd : c = d
  · subst hcd
    simp [h, Context.phase, Context.desc?]
  · simp [State.ctx_setCtx_of_ne s _ hcd]

theorem keepsShape_withInstance {d : CtxIdx} {body : Desc → Table → Word → Word → Result}
    (h : ∀ desc table reg len, s.ctx d = .active desc table reg len → KeepsShape s (body desc table reg len)) :
    KeepsShape s (withInstance d s body) := by
  obtain ⟨-, e⟩ | ⟨desc, table, reg, len, hctx, e⟩ := withInstance_cases d s body <;> rw [e]
  · exact keepsShape_raiseError _
  · exact h desc table reg len hctx

theorem keepsShape_of_loads_none {i : Instr} (hload : i.loads = none) (hi : i ≠ .srst) :
    KeepsShape s (exec i s) := by
  intro t h c
  have hctx : t.ctx c = s.ctx c := exec_ctx_of_not_loaded h hi (by simp [hload])
  rw [hctx]
  exact ⟨rfl, rfl⟩

end Shape

/-- The commands that may change a context's STATE or DESC (R28, R29). -/
def reshapes : Instr → Bool
  | .config _ _ _ _ | .start _ | .resume _ | .srst => true
  | .nop | .updb _ _ | .updd _ _ | .finish _ | .combine _ _ | .combv _ | .combf _ | .shift _ | .compat _ _
  | .tblrd _ _ | .query _ _ => false

theorem keepsShape_exec {i : Instr} (hi : reshapes i = false) (s : State) : KeepsShape s (exec i s) := by
  cases i with
  | config | start | resume | srst => cases hi
  | nop | finish | combf | shift | compat | tblrd | query => exact keepsShape_of_loads_none rfl nofun
  | updb | updd | combv => exact keepsShape_withInstance fun _ _ _ _ hctx => keepsShape_accumulate hctx _ _
  | combine =>
    refine keepsShape_withInstance fun _ _ _ _ hctx => keepsShape_withInstance fun _ _ _ _ _ => ?_
    split
    · exact keepsShape_accumulate hctx _ _
    · exact keepsShape_raiseError _

/-- A descriptor after a command was there before, or a successful CONFIG of that context validated it (R29). -/
theorem exec_desc? {i : Instr} {s t : State} (h : exec i s = .next t) {c : CtxIdx} {x : Desc}
    (hx : (t.ctx c).desc? = some x) :
    (s.ctx c).desc? = some x ∨ ∃ width ri ro, i = .config c width ri ro ∧ t.err = .ok ∧
      validate width s.arg0 s.arg1 ri ro s.arg2 = some x := by
  cases i with
  | srst =>
    cases h
    change (s.deviceReset.ctx c).desc? = some x at hx
    simp [Context.desc?] at hx
  | config d width ri ro =>
    obtain ⟨-, hctxs⟩ | ⟨desc, hdesc, rfl⟩ := execConfig_next h
    · exact .inl (State.ctx_eq_of_ctxs_eq hctxs c ▸ hx)
    · change ((s.setCtx d _).ctx c).desc? = some x at hx
      by_cases hcd : c = d
      · subst hcd
        rw [State.ctx_setCtx_self] at hx
        cases hx
        exact .inr ⟨width, ri, ro, rfl, rfl, hdesc⟩
      · rw [State.ctx_setCtx_of_ne s _ hcd] at hx
        exact .inl hx
  | start d | resume d =>
    obtain ⟨-, hdesc⟩ := withVariant_load_next h c
    exact .inl (hdesc ▸ hx)
  | nop | updb | updd | finish | combine | combv | combf | shift | compat | tblrd | query =>
    obtain ⟨-, hdesc⟩ := keepsShape_exec rfl s t h c
    exact .inl (hdesc ▸ hx)

end Sys2Proof.Machine

/-! SUPPORT. Two runs of one command (R20, R35): from states that agree in ARG0 to ARG2 and in the contexts the command
names, every shared operation ends alike. -/

namespace Sys2Proof.Machine

open Sys2Proof.Claims

/-- Two outcomes of command `i` agree in the completion code, in the contexts that `i` names and in what it answers. -/
def SameOutcome (i : Instr) (r r' : Result) : Prop :=
  ∀ t t', r = .next t → r' = .next t' →
    t.err = t'.err ∧ (∀ c ∈ contextsOf i, t.ctx c = t'.ctx c) ∧ (i.answers = true → t.err = .ok → t.res = t'.res)

section TwoRuns

variable {i : Instr} {s s' : State} (hctx : ∀ c ∈ contextsOf i, s.ctx c = s'.ctx c)
include hctx

theorem sameOutcome_raiseError {e : ErrCode} (he : e ≠ .ok) :
    SameOutcome i (raiseError e s) (raiseError e s') := by
  rintro _ _ ⟨⟩ ⟨⟩
  exact ⟨rfl, hctx, fun _ hok => absurd hok he⟩

theorem sameOutcome_setRes {v v' : Word} (hv : v = v') :
    SameOutcome i (succeed (s.setRes v)) (succeed (s'.setRes v')) := by
  rintro _ _ ⟨⟩ ⟨⟩
  exact ⟨rfl, hctx, fun _ _ => hv⟩

theorem sameOutcome_setCtx (hi : i.answers = false) (d : CtxIdx) {x x' : Context} (hx : x = x') :
    SameOutcome i (succeed (s.setCtx d x)) (succeed (s'.setCtx d x')) := by
  rintro _ _ ⟨⟩ ⟨⟩
  refine ⟨rfl, fun c hc => ?_, by simp [hi]⟩
  change (s.setCtx d x).ctx c = (s'.setCtx d x').ctx c
  rw [State.ctx_setCtx, State.ctx_setCtx, hx, hctx c hc]

theorem sameOutcome_withVariant {d : CtxIdx} (hd : d ∈ contextsOf i) {body body' : Desc → Table → Result}
    (h : ∀ desc table, SameOutcome i (body desc table) (body' desc table)) :
    SameOutcome i (withVariant d s body) (withVariant d s' body') := by
  unfold withVariant
  rw [← hctx d hd]
  cases s.ctx d with
  | unconf => exact sameOutcome_raiseError hctx (by decide)
  | conf desc table => exact h desc table
  | active desc table reg len => exact h desc table

theorem sameOutcome_withInstance {d : CtxIdx} (hd : d ∈ contextsOf i)
    {body body' : Desc → Table → Word → Word → Result}
    (h : ∀ desc table reg len, SameOutcome i (body desc table reg len) (body' desc table reg len)) :
    SameOutcome i (withInstance d s body) (withInstance d s' body') := by
  unfold withInstance
  rw [← hctx d hd]
  cases s.ctx d with
  | unconf => exact sameOutcome_raiseError hctx (by decide)
  | conf desc table => exact sameOutcome_raiseError hctx (by decide)
  | active desc table reg len => exact h desc table reg len

end TwoRuns

theorem sameOutcome_exec {i : Instr} {s s' : State} (h0 : s.arg0 = s'.arg0) (h1 : s.arg1 = s'.arg1)
    (h2 : s.arg2 = s'.arg2) (hctx : ∀ c ∈ contextsOf i, s.ctx c = s'.ctx c) :
    SameOutcome i (exec i s) (exec i s') := by
  have hmask0 : s.maskedArg0 = s'.maskedArg0 := by
    funext desc
    simp only [State.maskedArg0, h0]
  have hmask2 : s.maskedArg2 = s'.maskedArg2 := by
    funext desc
    simp only [State.maskedArg2, h2]
  cases i with
  | nop | srst =>
    rintro _ _ ⟨⟩ ⟨⟩
    exact ⟨rfl, nofun, nofun⟩
  | config d width ri ro =>
    simp only [exec, execConfig, h0, h1, h2]
    cases validate width s'.arg0 s'.arg1 ri ro s'.arg2 with
    | none => exact sameOutcome_raiseError hctx (by decide)
    | some desc => exact sameOutcome_setCtx hctx rfl d rfl
  | start d =>
    exact sameOutcome_withVariant hctx (by simp [contextsOf]) fun _ _ => sameOutcome_setCtx hctx rfl d rfl
  | resume d =>
    exact sameOutcome_withVariant hctx (by simp [contextsOf]) fun _ _ =>
      sameOutcome_setCtx hctx rfl d (by rw [hmask0])
  | updb d c =>
    exact sameOutcome_withInstance hctx (by simp [contextsOf]) fun _ _ _ _ => sameOutcome_setCtx hctx rfl d rfl
  | updd d n =>
    exact sameOutcome_withInstance hctx (by simp [contextsOf]) fun _ _ _ _ =>
      sameOutcome_setCtx hctx rfl d (by rw [h0])
  | finish d =>
    exact sameOutcome_withInstance hctx (by simp [contextsOf]) fun _ _ _ _ => sameOutcome_setRes hctx rfl
  | combine d src =>
    have hd : d ∈ contextsOf (.combine d src) := by simp [contextsOf]
    have hsrc : src ∈ contextsOf (.combine d src) := by simp [contextsOf]
    refine sameOutcome_withInstance hctx hd fun _ _ _ _ => sameOutcome_withInstance hctx hsrc fun _ _ _ _ => ?_
    rw [hctx d hd, hctx src hsrc]
    split
    · exact sameOutcome_setCtx hctx rfl d rfl
    · exact sameOutcome_raiseError hctx (by decide)
  | combv d =>
    exact sameOutcome_withInstance hctx (by simp [contextsOf]) fun _ _ _ _ =>
      sameOutcome_setCtx hctx rfl d (by rw [hmask0, h1])
  | combf d =>
    exact sameOutcome_withVariant hctx (by simp [contextsOf]) fun _ _ =>
      sameOutcome_setRes hctx (by rw [hmask0, h1, hmask2])
  | shift d =>
    exact sameOutcome_withVariant hctx (by simp [contextsOf]) fun _ _ =>
      sameOutcome_setRes hctx (by rw [hmask0, h1])
  | compat d src =>
    have hd : d ∈ contextsOf (.compat d src) := by simp [contextsOf]
    have hsrc : src ∈ contextsOf (.compat d src) := by simp [contextsOf]
    exact sameOutcome_setRes hctx (by rw [hctx d hd, hctx src hsrc])
  | tblrd d k =>
    exact sameOutcome_withVariant hctx (by simp [contextsOf]) fun _ _ => sameOutcome_setRes hctx rfl
  | query d q =>
    exact sameOutcome_withInstance hctx (by simp [contextsOf]) fun _ _ _ _ => sameOutcome_setRes hctx rfl

end Sys2Proof.Machine

/-! SUPPORT. STATUS range by range (R25): each bit belongs to one field, or is reserved and reads 0. -/

namespace Sys2Proof.Machine

/-- A field of a word from its bits. -/
theorem extractLsb'_eq_of_bits {v : Word} {start len : Nat} {x : BitVec len}
    (h : ∀ i < len, v.getLsbD (start + i) = x.getLsbD i) : v.extractLsb' start len = x := by
  apply BitVec.eq_of_getLsbD_eq
  intro i hi
  rw [BitVec.getLsbD_extractLsb', h i hi, decide_eq_true hi, Bool.true_and]

section Status

variable (s : State)

@[simp] theorem csField_clearSticky (v : Word) (c : CtxIdx) : (s.clearSticky v).csField c = s.csField c := rfl

theorem csField_getLsbD_of_lt (c : CtxIdx) {i : Nat} (h : i < 16 + 2 * c.val) : (s.csField c).getLsbD i = false := by
  rw [State.csField_getLsbD]
  simp [Nat.not_le.mpr h]

theorem csField_getLsbD_of_ge (c : CtxIdx) {i : Nat} (h : 18 + 2 * c.val ≤ i) :
    (s.csField c).getLsbD i = false := by
  rw [State.csField_getLsbD, BitVec.getLsbD_of_ge _ _ (by omega : 2 ≤ i - (16 + 2 * c.val)), Bool.and_false]

/-- Below bit 16 only ERR and the sticky bits are left. -/
theorem statusWord_getLsbD_low {i : Nat} (h : i < 16) :
    s.statusWord.getLsbD i = (s.err.code.getLsbD i || (decide (8 ≤ i) && s.sticky.getLsbD (i - 8))) := by
  rw [State.statusWord_getLsbD]
  simp [csField_getLsbD_of_lt s _ (Nat.lt_of_lt_of_le h (Nat.le_add_right 16 _))]

/-- From bit 16 on only the CS fields are left. -/
theorem statusWord_getLsbD_high {i : Nat} (h : 16 ≤ i) :
    s.statusWord.getLsbD i = ((s.csField 0).getLsbD i || (s.csField 1).getLsbD i || (s.csField 2).getLsbD i ||
      (s.csField 3).getLsbD i) := by
  rw [State.statusWord_getLsbD, BitVec.getLsbD_of_ge s.err.code _ (by omega : 4 ≤ i),
    BitVec.getLsbD_of_ge s.sticky _ (by omega : 4 ≤ i - 8)]
  simp

/-- The bits of CS_c are those of its own field alone. -/
theorem statusWord_getLsbD_cs (c : CtxIdx) {j : Nat} (h : j < 2) :
    s.statusWord.getLsbD (16 + 2 * c.val + j) =
      (decide (c.val < s.cfg.nctx) && (s.ctx c).phase.code.getLsbD j) := by
  have hother : ∀ e : CtxIdx, e ≠ c → (s.csField e).getLsbD (16 + 2 * c.val + j) = false := by
    intro e hne
    have : e.val ≠ c.val := fun hv => hne (Fin.ext hv)
    by_cases hlt : e.val < c.val
    · exact csField_getLsbD_of_ge s e (by omega)
    · exact csField_getLsbD_of_lt s e (by omega)
  have hown : (s.csField c).getLsbD (16 + 2 * c.val + j) =
      (decide (c.val < s.cfg.nctx) && (s.ctx c).phase.code.getLsbD j) := by
    rw [State.csField_getLsbD]
    simp
  rw [← hown, statusWord_getLsbD_high s (by omega)]
  clear hown
  generalize 16 + 2 * c.val + j = i at *
  match c with
  | 0 | 1 | 2 | 3 => simp [hother]

theorem statusWord_getLsbD_top {i : Nat} (h : 24 ≤ i) : s.statusWord.getLsbD i = false := by
  have hcs : ∀ c, (s.csField c).getLsbD i = false := by
    intro c
    have hc := c.isLt
    exact csField_getLsbD_of_ge s c (by omega)
  simp [statusWord_getLsbD_high s (by omega : 16 ≤ i), hcs]

/-- The value that STATUS reads after a STATUS write (R26). -/
theorem statusWord_clearSticky (v : Word) :
    (s.clearSticky v).statusWord = s.statusWord &&& ~~~(v &&& 0xF00) := by
  have hmask : ∀ i, (0xF00 : Word).getLsbD i = (decide (8 ≤ i) && decide (i < 12)) := by
    intro i
    by_cases hi : i < 64
    · revert i
      decide
    · rw [BitVec.getLsbD_of_ge _ _ (by omega)]
      simp [show ¬ i < 12 by omega]
  apply BitVec.eq_of_getLsbD_eq
  intro i hi
  rw [BitVec.getLsbD_and, BitVec.getLsbD_not, BitVec.getLsbD_and, hmask]
  by_cases h16 : i < 16
  · rw [statusWord_getLsbD_low _ h16, statusWord_getLsbD_low _ h16]
    by_cases h8 : 8 ≤ i
    · by_cases h12 : i < 12
      · simp [h8, h12, hi, show i - 8 < 4 by omega, show 8 + (i - 8) = i by omega,
          BitVec.getLsbD_of_ge s.err.code i (by omega)]
      · simp [h12, hi, BitVec.getLsbD_of_ge s.sticky (i - 8) (by omega)]
    · simp [h8, hi]
  · rw [statusWord_getLsbD_high _ (by omega), statusWord_getLsbD_high _ (by omega)]
    simp [show ¬ i < 12 by omega, hi]

end Status

end Sys2Proof.Machine

/-! SUPPORT. The obligations about the architectural state (10_state.md). -/

namespace Sys2Proof.Proofs

open Sys2Proof.Machine Sys2Proof.Claims

/-- Settles O20: a CMD write other than SRST only sets sticky bits, and a STATUS write clears those written 1. -/
theorem stickyBitsClearOnlyWhenAsked : Obligations.StickyBitsClearOnlyWhenAsked := by
  intro e s t i h hset hclear
  obtain ⟨he, -⟩ | ⟨a, v, r, he, hop, htarget, hw⟩ | ⟨_, _, rfl⟩ := performEvent_next h
  · exact .inl he
  · refine .inr ⟨a, v, he, hop, ?_⟩
    cases r with
    | cmd =>
      refine .inr ⟨htarget, by_contra fun hv => ?_⟩
      obtain ⟨-, hsticky⟩ := commandWrite_frame hw hv
      simp [hsticky, hset] at hclear
    | status =>
      cases hw
      have hi : i < 4 := BitVec.lt_of_getLsbD hset
      exact .inl ⟨htarget, by simpa [hset, hi] using hclear⟩
    | arg0 | arg1 | arg2 | res | id | reserved =>
      cases hw
      simp [hset] at hclear
  · simp [hset] at hclear

/-- Settles O21, from the frame of a CMD write. -/
theorem argsHoldWhatTheHostLastWrote : Obligations.ArgsHoldWhatTheHostLastWrote := by
  refine ⟨fun s v => ⟨rfl, rfl, rfl⟩, fun e s t h hne => ?_, fun i s t h hi => exec_keeps_args h hi⟩
  obtain ⟨he, -⟩ | ⟨a, v, r, he, hop, htarget, hw⟩ | ⟨_, _, rfl⟩ := performEvent_next h
  · exact .inl he
  · refine .inr ⟨a, v, he, hop, ?_⟩
    cases r with
    | cmd =>
      refine .inr (.inr (.inr ⟨htarget, by_contra fun hv => ?_⟩))
      obtain ⟨hargs, -⟩ := commandWrite_frame hw hv
      simp [hargs] at hne
    | arg0 =>
      cases hw
      exact .inl ⟨htarget, rfl⟩
    | arg1 =>
      cases hw
      exact .inr (.inl ⟨htarget, rfl⟩)
    | arg2 =>
      cases hw
      exact .inr (.inr (.inl ⟨htarget, rfl⟩))
    | res | status | id | reserved =>
      cases hw
      simp at hne
  · simp at hne

/-- Settles O22, from the three things that a command can do to RES. -/
theorem resIsWrittenOnlyByResultCommands : Obligations.ResIsWrittenOnlyByResultCommands := by
  refine ⟨fun e s t h hne => ?_, fun i s t h hne => ?_, fun _ _ => rfl⟩
  · obtain ⟨he, rfl⟩ | ⟨a, v, r, he, hop, htarget, hw⟩ | ⟨_, _, rfl⟩ := performEvent_next h
    · exact .inl ⟨he, rfl⟩
    · cases r with
      | cmd =>
        obtain ⟨i, hdecode, hexec⟩ | ⟨_, -, rfl⟩ := commandWrite_next hw
        · exact .inr ⟨a, v, i, he, hop, htarget, hdecode, hexec, (exec_res hexec).resolve_left hne⟩
        · exact absurd rfl hne
      | arg0 | arg1 | arg2 | res | status | id | reserved =>
        cases hw
        exact absurd rfl hne
    · exact absurd rfl hne
  · obtain ⟨ha, hok⟩ | hsrst := (exec_res h).resolve_left hne
    · exact .inl ⟨hok, answers_cases ha⟩
    · exact .inr hsrst

/-- Settles O23: four commands may change STATE, the others keep it. -/
theorem contextStateTransitions : Obligations.ContextStateTransitions := by
  refine ⟨fun i s t c h => ?_, fun s t c h => ?_, fun cfg c => ?_⟩
  · cases i with
    | srst =>
      cases h
      change (s.deviceReset.ctx c).phase = .unconf
      rw [State.ctx_deviceReset]
      rfl
    | config d width ri ro =>
      obtain ⟨herr, hctxs⟩ | ⟨desc, -, rfl⟩ := execConfig_next h
      · simp [herr, State.ctx_eq_of_ctxs_eq hctxs]
      · change ((s.setCtx d _).ctx c).phase = _
        by_cases hcd : c = d
        · simp [hcd, Context.phase]
        · simp [State.ctx_setCtx_of_ne s _ hcd, Ne.symm hcd]
    | start d | resume d => exact (withVariant_load_next h c).left
    | nop | updb | updd | finish | combine | combv | combf | shift | compat | tblrd | query =>
      exact (keepsShape_exec rfl s t h c).left
  · cases h
    exact State.ctx_deviceReset s c
  · rw [State.ctx_resetOf]
    rfl

/-- Settles O24, from what validation stores. -/
theorem descriptorIsImmutable : Obligations.DescriptorIsImmutable := by
  refine ⟨fun s c => desc?_isSome_iff (s.ctx c), fun i s t c x h hx => ?_⟩
  obtain hsame | ⟨width, ri, ro, hi, hok, hvalid⟩ := exec_desc? h hx
  · exact .inl hsame
  · exact .inr ⟨width, ri, ro, hi, hok, eq_of_validate hvalid⟩

/-- Settles O25, field by field. -/
theorem commandFrame : Obligations.CommandFrame := by
  intro i s t h
  obtain ⟨hcfg, hreset, hpending, hreplies⟩ := exec_keeps_surroundings h
  refine ⟨hcfg, hreset, hpending, hreplies, fun hi => ?_⟩
  obtain ⟨h0, h1, h2⟩ := exec_keeps_args h hi
  refine ⟨h0, h1, h2, fun ha => ?_, exec_sticky h hi, fun c hc => exec_ctx_of_not_loaded h hi hc⟩
  obtain hres | ⟨ha', -⟩ | ⟨hsrst, -⟩ := exec_res h
  · exact hres
  · simp [ha] at ha'
  · exact absurd hsrst hi

/-- Settles O26, by running each command on the two states side by side. -/
theorem commandsDependOnlyOnTheirOperands : Obligations.CommandsDependOnlyOnTheirOperands := by
  intro i s s' t t' h h' h0 h1 h2 hctx
  exact sameOutcome_exec h0 h1 h2 hctx t t' h h'

/-- Settles O32, from the bits of each range. -/
theorem statusLayout : Obligations.StatusLayout := by
  intro s
  have hlow := fun i (h : i < 16) => statusWord_getLsbD_low s h
  have herr := fun i (h : 4 ≤ i) => BitVec.getLsbD_of_ge s.err.code i h
  refine ⟨extractLsb'_eq_of_bits fun i hi => ?_, extractLsb'_eq_of_bits fun i hi => ?_,
    extractLsb'_eq_of_bits fun i hi => ?_, extractLsb'_eq_of_bits fun i hi => ?_,
    fun c => extractLsb'_eq_of_bits fun i hi => ?_, extractLsb'_eq_of_bits fun i _ => ?_⟩
  · simp [State.busRead, hlow i (by omega), show ¬ 8 ≤ i by omega]
  · simp [State.busRead, hlow (4 + i) (by omega), show ¬ 8 ≤ 4 + i by omega]
  · simp [State.busRead, hlow (8 + i) (by omega), herr (8 + i) (by omega)]
  · simp [State.busRead, hlow (12 + i) (by omega), herr (12 + i) (by omega), show 12 + i - 8 = 4 + i by omega]
  · rw [State.busRead, statusWord_getLsbD_cs s c hi]
    split
    · next hc => cases (s.ctx c).phase <;> simp [hc, Phase.code]
    · next hc => simp [hc]
  · exact (statusWord_getLsbD_top s (Nat.le_add_right 24 i)).trans BitVec.getLsbD_zero.symm

/-- Settles O30. -/
theorem resetValues : Obligations.ResetValues := by
  refine ⟨fun cfg => ⟨rfl, rfl, rfl, rfl, ?_, rfl, rfl, State.ctx_resetOf cfg⟩, rfl, by decide⟩
  have hcs : ∀ c, (State.resetOf cfg).csField c = 0 := by
    intro c
    simp [State.csField, Context.phase, Phase.code]
  simp [State.busRead, State.statusWord, hcs, ErrCode.code]

/-- Settles O31: NCTX has four legal values. -/
theorem idLayout : Obligations.IdLayout := by
  refine ⟨fun s hlegal => ?_, fun s hn => ?_⟩
  · obtain ⟨hmin, hmax, -⟩ := hlegal
    simp only [State.busRead, State.idWord]
    generalize s.cfg.nctx = n at *
    interval_cases n <;> decide
  · simp only [State.busRead, State.idWord, hn]
    decide

/-- Settles O33. -/
theorem statusWriteClearsOnlyStickyBits : Obligations.StatusWriteClearsOnlyStickyBits := by
  rintro s _ v ⟨⟩
  exact ⟨statusWord_clearSticky s v, rfl, rfl⟩

/-- Settles O34, by following the oldest event to the command it writes. -/
theorem stepRunsTheDecodedCommand : Obligations.StepRunsTheDecodedCommand := by
  refine ⟨fun s hp => ?_, fun s e rest hp => step_of_pending hp, fun s a rest v i hp hr htarget hop hdecode => ?_,
    fun s a rest v x hp hr htarget hop hdecode => ?_⟩
  · simp only [step, performPending, hp]
  · rw [step_of_cmdWrite hp hr htarget hop]
    simp only [commandWrite, hdecode]
  · rw [step_of_cmdWrite hp hr htarget hop]
    simp only [commandWrite, hdecode]

end Sys2Proof.Proofs

/-! SUPPORT. Which bus accesses the device performs, and what each does (20_memory.md R51, R52, R58). -/

namespace Sys2Proof.Machine

/-- The offsets of R21 are the multiples of 8 below 0x40. -/
theorem WinReg.exists_offset_eq {off : Nat} : (∃ r : WinReg, r.offset = off) ↔ ∃ k < 8, off = 8 * k := by
  constructor
  · rintro ⟨r, rfl⟩
    cases r <;> decide
  · rintro ⟨k, hk, rfl⟩
    interval_cases k
    exacts [⟨.cmd, rfl⟩, ⟨.arg0, rfl⟩, ⟨.arg1, rfl⟩, ⟨.arg2, rfl⟩, ⟨.res, rfl⟩, ⟨.status, rfl⟩, ⟨.id, rfl⟩,
      ⟨.reserved, rfl⟩]

/-- The accesses that reach a register are those that R51 admits. -/
theorem Access.exists_target_iff {a : Access} {cfg : Config} :
    (∃ r, a.target cfg = some r) ↔ a.bytes = 8 ∧ ∃ k < 8, a.addr = cfg.crcBase + 8 * k := by
  simp only [Access.target_eq_some, exists_and_left]
  refine and_congr_right fun _ => ⟨?_, ?_⟩
  · rintro ⟨r, haddr⟩
    obtain ⟨k, hk, hoff⟩ := WinReg.exists_offset_eq.mp ⟨r, rfl⟩
    exact ⟨k, hk, hoff ▸ haddr⟩
  · rintro ⟨k, hk, haddr⟩
    obtain ⟨r, hoff⟩ := WinReg.exists_offset_eq.mpr ⟨k, hk, rfl⟩
    exact ⟨r, hoff ▸ haddr⟩

section Admitted

variable {a : Access} {s : State} {r : WinReg} (hr : s.resetAsserted = false) (htarget : a.target s.cfg = some r)
include hr htarget

theorem performAccess_of_read (hop : a.op = .read) :
    performAccess a s = .next { s with replies := ⟨a.master, s.busRead r⟩ :: s.replies } := by
  simp [performAccess, hr, htarget, hop]

theorem performAccess_of_write {v : Word} (hop : a.op = .write v) : performAccess a s = busWrite r v s := by
  simp [performAccess, hr, htarget, hop]

end Admitted

/-- An access that touches the window and reaches no register of it is the bus error of R52. -/
theorem performAccess_of_touches {a : Access} {s : State} (hr : s.resetAsserted = false)
    (htarget : a.target s.cfg = none) (htouch : a.touches s.cfg = true) : performAccess a s = .fault .busError := by
  simp [performAccess, hr, htarget, htouch]

/-- A CMD write always completes: an illegal value raises IllegalCommand, and no command stops (R203). -/
theorem commandWrite_completes (v : Word) (s : State) : ∃ t, commandWrite v s = .next t := by
  unfold commandWrite
  split
  · next i _ => exact effect_next (exec_effect i s)
  · exact ⟨_, rfl⟩

theorem busWrite_completes (r : WinReg) (v : Word) (s : State) : ∃ t, busWrite r v s = .next t := by
  cases r with
  | cmd => exact commandWrite_completes v s
  | arg0 | arg1 | arg2 | res | status | id | reserved => exact ⟨_, rfl⟩

/-- The device performs exactly the accesses that R51 and R230 admit. -/
theorem performAccess_completes_iff {a : Access} {s : State} : (∃ t, performAccess a s = .next t) ↔
    s.resetAsserted = false ∧ a.bytes = 8 ∧ ∃ k < 8, a.addr = s.cfg.crcBase + 8 * k := by
  rw [← Access.exists_target_iff]
  constructor
  · rintro ⟨t, h⟩
    obtain ⟨hr, r, htarget, -⟩ := performAccess_next h
    exact ⟨hr, r, htarget⟩
  · rintro ⟨hr, r, htarget⟩
    cases hop : a.op with
    | read => exact ⟨_, performAccess_of_read hr htarget hop⟩
    | write v =>
      rw [performAccess_of_write hr htarget hop]
      exact busWrite_completes r v s

end Sys2Proof.Machine

/-! SUPPORT. The obligations about the register window and the bus (20_memory.md). -/

namespace Sys2Proof.Proofs

open Sys2Proof.Machine

/-- Settles O28, from the offsets of the eight registers. -/
theorem admittedAccesses : Obligations.AdmittedAccesses := by
  intro s a hr
  refine ⟨fun hadmitted => performAccess_completes_iff.mpr ⟨hr, hadmitted⟩, fun hlow hhigh hnot => ?_,
    fun h8 r => ?_⟩
  · have htarget : a.target s.cfg = none :=
      Option.eq_none_iff_forall_ne_some.mpr fun r h => hnot (Access.exists_target_iff.mp ⟨r, h⟩)
    exact performAccess_of_touches hr htarget (by simp [Access.touches, hlow, hhigh])
  · simp [Access.target_eq_some, h8]

/-- Settles O35: with an access pending the step is that access, and no other event stops. -/
theorem safeSteps : Obligations.SafeSteps := by
  intro s
  unfold Safe
  cases hp : s.pending with
  | nil => simp [step, performPending, hp]
  | cons e rest =>
    rw [step_of_pending hp]
    cases e with
    | access a => simpa [performEvent] using performAccess_completes_iff (s := { s with pending := rest })
    | assertReset | releaseReset => simp [performEvent]

/-- Settles O27, register by register. -/
theorem windowAccessEffects : Obligations.WindowAccessEffects := by
  intro s a r hr htarget
  refine ⟨fun hop => ?_, fun v hop => ?_⟩
  · rw [performAccess_of_read hr htarget hop]
    cases r <;> rfl
  · rw [performAccess_of_write hr htarget hop]
    cases r <;> rfl

end Sys2Proof.Proofs

/-! SUPPORT. The decoder from the side of the word (R83, R85): what it answers on a word of a given opcode, and when that
is an error; and the fields of an encoded command (R86). -/

namespace Sys2Proof

/-- With the reserved bits zero and an opcode of the map, decoding is R83's checks on the opcode's row and then the
command's own. -/
theorem decode_of_code {v : Word} {op : Opcode} (hz : fieldZhi v = 0) (h1 : fieldRsv1 v = 0)
    (h0 : fieldRsv0 v = 0) (hop : op.code = fieldOp v) (n : Nat) :
    decode n v =
      if unusedFieldSet op.uses v then .error .unusedField
      else if op.uses.d && n ≤ (fieldD v).val then .error .contextD
      else if op.uses.s && n ≤ (fieldS v).val then .error .contextS
      else buildInstr op v := by
  simp [decode, hz, h1, h0, ← hop]

section Encode

open Laws.EncodeFields

/-- Every command is encoded as a command word of its own row. -/
theorem encode_fields (i : Instr) : Statement i := by
  cases i <;> exact statement_commandWord _ _ _ _ _ _ rfl

/-- The contexts in the D and S fields of a well-formed command exist, where its row uses them. -/
theorem encode_contexts_lt {n : Nat} {i : Instr} (hwf : i.wf n = true) :
    ((opcodeOf i).uses.d = true → (fieldD (encode i)).val < n) ∧
      ((opcodeOf i).uses.s = true → (fieldS (encode i)).val < n) := by
  cases i with
  | nop | srst => exact ⟨nofun, nofun⟩
  | config | start | resume | updb | updd | finish | combine | combv | combf | shift | compat | tblrd | query =>
    simpa [encode, Instr.wf, opcodeOf, Opcode.uses] using hwf

/-- The fields of an encoded command are its operands. -/
theorem buildInstr_encode (i : Instr) : buildInstr (opcodeOf i) (encode i) = .ok i := by
  cases i with
  | updd d n =>
    have hn : n.val % 256 = n.val := by omega
    simp [buildInstr, opcodeOf, encode, hn]
  | nop | srst | config | start | resume | updb | finish | combine | combv | combf | shift | compat | tblrd | query =>
    simp [buildInstr, opcodeOf, encode]

theorem decode_encode {n : Nat} {i : Instr} (hwf : i.wf n = true) : decode n (encode i) = .ok i := by
  obtain ⟨hz, h1, h0, hop, hunused⟩ := encode_fields i
  obtain ⟨hd, hs⟩ := encode_contexts_lt hwf
  rw [decode_of_code hz h1 h0 hop.symm, if_neg (by simp [hunused]), if_neg (by simpa using hd),
    if_neg (by simpa using hs), buildInstr_encode]

end Encode

/-! ### Which words decode to no command (R85) -/

theorem unusedFieldSet_iff {u : FieldUse} {v : Word} : unusedFieldSet u v = true ↔
    (u.d = false ∧ fieldD v ≠ 0) ∨ (u.s = false ∧ fieldS v ≠ 0) ∨
      (u.flags = false ∧ (fieldRi v = true ∨ fieldRo v = true)) ∨ (u.imm = false ∧ fieldImm v ≠ 0) := by
  simp [unusedFieldSet, or_assoc]

theorem Selector.ofByte_eq_none_iff {b : Byte} : Selector.ofByte b = none ↔ 6 < b.toNat := by
  unfold Selector.ofByte
  split <;> simp_all
  omega

theorem Opcode.ofByte_eq_none_iff {b : Byte} : Opcode.ofByte b = none ↔ 0x0F ≤ b.toNat := by
  unfold Opcode.ofByte
  split <;> simp_all
  omega

/-- An OP byte has at most one row of the map. -/
theorem Opcode.code_eq_iff {b : Byte} {op op' : Opcode} (h : Opcode.ofByte b = some op) :
    op'.code = b ↔ op' = op := by
  constructor
  · rintro rfl
    simpa using h
  · rintro rfl
    exact Opcode.code_of_ofByte h

/-- Only UPDD and QUERY check their immediate. -/
theorem buildInstr_error_iff {op : Opcode} {v : Word} : (∃ x, buildInstr op v = .error x) ↔
    (op = .updd ∧ 8 < (fieldImm v).toNat) ∨ (op = .query ∧ 6 < (fieldImm v).toNat) := by
  cases op with
  | updd =>
    simp only [buildInstr]
    split
    · next h => simp [show ¬ 8 < (fieldImm v).toNat by omega]
    · next h => simp [show 8 < (fieldImm v).toNat by omega]
  | query =>
    simp only [buildInstr, ← Selector.ofByte_eq_none_iff]
    split <;> simp [*]
  | nop | srst | config | start | resume | updb | finish | combine | combv | combf | shift | compat | tblrd =>
    simp [buildInstr]

/-- With the reserved bits zero, a word of an opcode of the map is illegal when one of its row's checks fails. -/
theorem decode_error_iff_of_code {v : Word} {op : Opcode} (hz : fieldZhi v = 0) (h1 : fieldRsv1 v = 0)
    (h0 : fieldRsv0 v = 0) (hop : op.code = fieldOp v) (n : Nat) :
    (∃ x, decode n v = .error x) ↔
      unusedFieldSet op.uses v = true ∨ (op.uses.d = true ∧ n ≤ (fieldD v).val) ∨
        (op.uses.s = true ∧ n ≤ (fieldS v).val) ∨ ∃ x, buildInstr op v = .error x := by
  rw [decode_of_code hz h1 h0 hop]
  simp only [Bool.and_eq_true, decide_eq_true_eq]
  split_ifs with hu hd hs
  · simp [hu]
  · simp [hd]
  · simp [hs]
  · simp only [hu, hd, hs, false_or, Bool.false_eq_true]

theorem decode_error_of_reserved {v : Word} (n : Nat)
    (h : fieldZhi v ≠ 0 ∨ fieldRsv1 v ≠ 0 ∨ fieldRsv0 v ≠ 0 ∨ 0x0F ≤ (fieldOp v).toNat) :
    ∃ x, decode n v = .error x := by
  cases hdecode : decode n v with
  | error x => exact ⟨x, rfl⟩
  | ok i =>
    obtain ⟨hz, h1, h0, op, hop, -⟩ := decode_ok hdecode
    simp [hz, h1, h0, ← Opcode.ofByte_eq_none_iff, hop] at h

end Sys2Proof

/-! SUPPORT. The obligations about the encoding of commands (30_encoding.md). -/

namespace Sys2Proof.Proofs

open Sys2Proof.Machine

/-- Settles O39: the fields of an encoded command pass every check of the decoder, and its operands are read back. -/
theorem decodeOfEncode : Obligations.DecodeOfEncode := by
  intro n i hwf
  exact decode_encode hwf

/-- Settles O40. -/
theorem encodeOfDecode : Obligations.EncodeOfDecode := by
  intro n v i h
  exact ⟨decode_wf h, encode_of_decode h⟩

/-- Settles O41: a value whose reserved bits are zero has at most one row of the map, whose checks decide. -/
theorem illegalEncodings : Obligations.IllegalEncodings := by
  refine fun s v => ⟨?_, fun x hx => ?_⟩
  · by_cases hres : fieldZhi v ≠ 0 ∨ fieldRsv1 v ≠ 0 ∨ fieldRsv0 v ≠ 0 ∨ 0x0F ≤ (fieldOp v).toNat
    · refine iff_of_true ?_ (decode_error_of_reserved _ hres)
      tauto
    · simp only [not_or, not_not, ← Opcode.ofByte_eq_none_iff, ← ne_eq, Option.ne_none_iff_exists'] at hres
      obtain ⟨hz, h1, h0, op, hop⟩ := hres
      have hcode : ∀ op' : Opcode, op'.code = fieldOp v ↔ op' = op := fun _ => Opcode.code_eq_iff hop
      simp only [hcode, exists_eq_left, ← Opcode.ofByte_eq_none_iff, hop, hz, h1, h0, ne_eq, not_true_eq_false,
        false_or, reduceCtorEq, decode_error_iff_of_code hz h1 h0 ((hcode op).mpr rfl), unusedFieldSet_iff,
        buildInstr_error_iff, or_assoc]
  · simp only [commandWrite, hx]
    rfl

/-- Settles O42, by evaluation. -/
theorem specWordsDecode : Obligations.SpecWordsDecode := by
  unfold Obligations.SpecWordsDecode
  decide

end Sys2Proof.Proofs

/-! SUPPORT. Host programs (R84, R87, R88): statements run event by event. A statement's event is an admitted access, so
it runs as the register write or read that it names. -/

namespace Sys2Proof.Machine

/-! ### Running a list of statements -/

theorem steps_add {k : Nat} {s t : State} (h : steps k s = .next t) (l : Nat) : steps (k + l) s = steps l t := by
  induction k generalizing s with
  | zero =>
    cases h
    rw [Nat.zero_add]
  | succ k ih =>
    rw [Nat.succ_add]
    simp only [steps] at h ⊢
    cases hstep : step s with
    | next u =>
      rw [hstep] at h
      exact ih h
    | fault f => simp [hstep] at h
    | refused f => simp [hstep] at h

/-- With the statements' events pending before any others, as many steps lead from `s` to `t` and leave the others. -/
def Runs (cfg : Config) (master : Nat) (stmts : List Stmt) (s t : State) : Prop :=
  ∀ rest, steps stmts.length { s with pending := stmts.map (Stmt.event cfg master) ++ rest } =
    .next { t with pending := rest }

section Runs

variable {cfg : Config} {master : Nat}

theorem Runs.nil (s : State) : Runs cfg master [] s s := fun _ => rfl

theorem Runs.append {a b : List Stmt} {s t u : State} (ha : Runs cfg master a s t) (hb : Runs cfg master b t u) :
    Runs cfg master (a ++ b) s u := by
  intro rest
  rw [List.length_append, List.map_append, List.append_assoc, steps_add (ha _), hb]

theorem Runs.of_performEvent {st : Stmt} {s t : State} (h : ∀ rest,
    performEvent (st.event cfg master) { s with pending := rest } = .next { t with pending := rest }) :
    Runs cfg master [st] s t := by
  intro rest
  have hstep : step { s with pending := st.event cfg master :: rest } = .next { t with pending := rest } :=
    (step_of_pending rfl).trans (h rest)
  simp [steps, hstep]

theorem Stmt.performEvent_event_of_write {st : Stmt} {r : WinReg} {v : Word} (hst : st.target = (r, .write v))
    {s : State} (hr : s.resetAsserted = false) :
    performEvent (st.event s.cfg master) s = busWrite r v s := by
  simp only [Stmt.event, hst, performEvent]
  exact performAccess_of_write hr (Access.target_eq_some.mpr ⟨rfl, rfl⟩) rfl

theorem Stmt.performEvent_event_of_read (r : WinReg) {s : State} (hr : s.resetAsserted = false) :
    performEvent ((Stmt.rd r).event s.cfg master) s =
      .next { s with replies := ⟨master, s.busRead r⟩ :: s.replies } :=
  performAccess_of_read hr (Access.target_eq_some.mpr ⟨rfl, rfl⟩) rfl

variable {s : State} (hr : s.resetAsserted = false)
include hr

theorem runs_wrArg0 (v : Word) : Runs s.cfg master [.wrArg0 v] s { s with arg0 := v } :=
  .of_performEvent fun rest =>
    Stmt.performEvent_event_of_write (st := .wrArg0 v) (r := .arg0) (s := { s with pending := rest }) rfl hr

theorem runs_rd_res : Runs s.cfg master [.rd .res] s { s with replies := ⟨master, s.res⟩ :: s.replies } :=
  .of_performEvent fun rest => Stmt.performEvent_event_of_read .res (s := { s with pending := rest }) hr

/-- A command statement runs as the command, because its encoding decodes to it (R83, R86). -/
theorem runs_command {i : Instr} (hwf : i.wf s.cfg.nctx = true) {t : State}
    (h : ∀ rest, exec i { s with pending := rest } = .next { t with pending := rest }) :
    Runs s.cfg master [.command i] s t := by
  refine .of_performEvent fun rest => ?_
  rw [← h rest, Stmt.command]
  refine (Stmt.performEvent_event_of_write (s := { s with pending := rest }) rfl hr).trans ?_
  simp [busWrite, commandWrite, decode_encode hwf]

end Runs

/-! ### Packing bytes for UPDD (R55, R88) -/

theorem lane_packBytes_zero (b : Byte) (bytes : List Byte) : lane (packBytes (b :: bytes)) 0 = b := by
  apply BitVec.eq_of_getLsbD_eq
  intro i hi
  simp [lane, packBytes, hi, show i < 64 by omega]

theorem lane_packBytes_succ (b : Byte) (bytes : List Byte) {k : Nat} (hk : k < 7) :
    lane (packBytes (b :: bytes)) (k + 1) = lane (packBytes bytes) k := by
  apply BitVec.eq_of_getLsbD_eq
  intro i hi
  have hb : b.getLsbD (8 * (k + 1) + i) = false := BitVec.getLsbD_of_ge _ _ (by omega)
  have hlow : ¬ 8 * (k + 1) + i < 8 := by omega
  simp only [lane, packBytes, BitVec.getLsbD_extractLsb', BitVec.getLsbD_or, BitVec.getLsbD_setWidth,
    BitVec.getLsbD_shiftLeft, hb, hlow, show 8 * (k + 1) + i < 64 by omega,
    show 8 * (k + 1) + i - 8 = 8 * k + i by omega, decide_true, decide_false, Bool.not_false, Bool.and_false,
    Bool.false_or, Bool.true_and]

/-- The lanes of a packed group are its bytes in order. -/
theorem lanes_packBytes {g : List Byte} (hg : g.length ≤ 8) : lanes (packBytes g) g.length = g := by
  induction g with
  | nil => rfl
  | cons b g ih =>
    rw [List.length_cons] at hg
    have htail : (List.range g.length).map (fun k => lane (packBytes (b :: g)) (k + 1)) =
        lanes (packBytes g) g.length :=
      List.map_congr_left fun k hk =>
        lane_packBytes_succ b g (by have := List.mem_range.mp hk; omega)
    rw [lanes, List.length_cons, List.range_succ_eq_map, List.map_cons, List.map_map, lane_packBytes_zero]
    exact congrArg (b :: ·) (htail.trans (ih (by omega)))

theorem length_le_of_mem_groupsOf8 {fuel : Nat} {bytes g : List Byte} (hg : g ∈ groupsOf8 fuel bytes) :
    g.length ≤ 8 := by
  induction fuel generalizing bytes with
  | zero => simp [groupsOf8] at hg
  | succ fuel ih =>
    cases bytes with
    | nil => simp [groupsOf8] at hg
    | cons b bytes =>
      rw [groupsOf8, List.mem_cons] at hg
      obtain rfl | hg := hg
      · exact List.length_take_le _ _
      · exact ih hg

theorem flatten_groupsOf8 {fuel : Nat} {bytes : List Byte} (h : bytes.length ≤ fuel) :
    (groupsOf8 fuel bytes).flatten = bytes := by
  induction fuel generalizing bytes with
  | zero =>
    obtain rfl : bytes = [] := by simpa using h
    rfl
  | succ fuel ih =>
    cases bytes with
    | nil => rfl
    | cons b bytes =>
      have hrest : ((b :: bytes).drop 8).length ≤ fuel := by
        simp only [List.length_drop, List.length_cons] at h ⊢
        omega
      rw [groupsOf8, List.flatten_cons, ih hrest, List.take_append_drop]

/-! ### A context that accumulates -/

theorem withVariant_of_desc {c : CtxIdx} {s : State} {d : Desc} {t : Table}
    (h : s.ctx c = .conf d t ∨ ∃ reg len, s.ctx c = .active d t reg len) (body : Desc → Table → Result) :
    withVariant c s body = body d t := by
  obtain h | ⟨reg, len, h⟩ := h
  · exact withVariant_conf h body
  · exact withVariant_active h body

/-- What a host sees between the statements of `crc` on context `d`: REG and LEN have moved on from the start `s`, the
last command succeeded, and parameters, reset level and replies are those of `s`. -/
structure Accumulates (s : State) (d : CtxIdx) (desc : Desc) (reg len : Word) (t : State) : Prop where
  cfg : t.cfg = s.cfg
  released : t.resetAsserted = false
  replies : t.replies = s.replies
  ok : t.err = .ok
  ctx : t.ctx d = .active desc desc.tableOf reg len

section Program

variable {s : State} {d : CtxIdx} {desc : Desc} (master : Nat) (hd : d.val < s.cfg.nctx)
include hd

section Create

variable (hr : s.resetAsserted = false)
  (hctx : s.ctx d = .conf desc desc.tableOf ∨ ∃ reg len, s.ctx d = .active desc desc.tableOf reg len)
include hr hctx

/-- `create` starts from NINIT (R107). -/
theorem runs_createStmts : ∃ t, Runs s.cfg master (createStmts d) s t ∧ Accumulates s d desc desc.ninit 0 t :=
  ⟨{ s.setCtx d (.active desc desc.tableOf desc.ninit 0) with err := .ok },
    runs_command hr (by simpa [Instr.wf] using hd) fun rest =>
      withVariant_of_desc (s := { s with pending := rest }) hctx _,
    ⟨rfl, hr, rfl, rfl, State.ctx_setCtx_self s d _⟩⟩

/-- `create` with a prior checksum starts from its unfinalized value (R109). -/
theorem runs_createResumedStmts (prior : Word) : ∃ t, Runs s.cfg master (createResumedStmts d prior) s t ∧
    Accumulates s d desc (unfinalize desc (truncTo desc.width prior)) 0 t :=
  ⟨{ State.setCtx { s with arg0 := prior } d
      (.active desc desc.tableOf (unfinalize desc (truncTo desc.width prior)) 0) with err := .ok },
    (runs_wrArg0 hr prior).append <| runs_command (s := { s with arg0 := prior }) hr
      (by simpa [Instr.wf] using hd) fun rest =>
      withVariant_of_desc (s := { s with arg0 := prior, pending := rest }) hctx _,
    ⟨rfl, hr, rfl, rfl, State.ctx_setCtx_self _ d _⟩⟩

end Create

variable {reg len : Word} {t : State} (ht : Accumulates s d desc reg len t)
include ht

/-- One group of `update`: the ARG0 write and UPDD consume its bytes (R142). -/
theorem runs_groupStmts {g : List Byte} (hg : g.length ≤ 8) : ∃ u, Runs s.cfg master (groupStmts d g) t u ∧
    Accumulates s d desc (runBytes desc desc.tableOf reg g) (len + BitVec.ofNat 64 g.length) u := by
  obtain ⟨hcfg, hr, hreplies, -, hctx⟩ := ht
  have hcount : (Fin.ofNat 9 g.length).val = g.length := Nat.mod_eq_of_lt (by omega)
  refine ⟨{ State.setCtx { t with arg0 := packBytes g } d (.active desc desc.tableOf
      (runBytes desc desc.tableOf reg g) (len + BitVec.ofNat 64 g.length)) with err := .ok },
    ?_, ⟨hcfg, hr, hreplies, rfl, State.ctx_setCtx_self _ d _⟩⟩
  rw [← hcfg] at hd ⊢
  refine (runs_wrArg0 hr (packBytes g)).append <| runs_command (s := { t with arg0 := packBytes g }) hr
    (by simpa [Instr.wf] using hd) fun rest => ?_
  refine (withInstance_active (s := { t with arg0 := packBytes g, pending := rest }) hctx _).trans ?_
  rw [hcount, lanes_packBytes hg]
  rfl

/-- The groups one after the other, by induction on their list (R143). -/
theorem runs_groups {gs : List (List Byte)} (hgs : ∀ g ∈ gs, g.length ≤ 8) :
    ∃ u, Runs s.cfg master (gs.flatMap (groupStmts d)) t u ∧
      Accumulates s d desc (runBytes desc desc.tableOf reg gs.flatten)
        (len + BitVec.ofNat 64 gs.flatten.length) u := by
  induction gs generalizing t reg len with
  | nil => exact ⟨t, .nil t, by simpa [runBytes] using ht⟩
  | cons g gs ih =>
    obtain ⟨u, hrun, hu⟩ := runs_groupStmts master hd ht (hgs g List.mem_cons_self)
    obtain ⟨w, hruns, hw⟩ := ih hu fun g' hg' => hgs g' (List.mem_cons_of_mem g hg')
    refine ⟨w, hrun.append hruns, ?_⟩
    simpa [runBytes, List.foldl_append, BitVec.ofNat_add, BitVec.add_assoc] using hw

theorem runs_updateStmts (bytes : List Byte) : ∃ u, Runs s.cfg master (updateStmts d bytes) t u ∧
    Accumulates s d desc (runBytes desc desc.tableOf reg bytes) (len + BitVec.ofNat 64 bytes.length) u := by
  have h := runs_groups master hd ht fun g hg => length_le_of_mem_groupsOf8 (fuel := bytes.length) (bytes := bytes) hg
  rwa [flatten_groupsOf8 le_rfl] at h

/-- FINISH puts the checksum in RES, and the read answers it (R147). -/
theorem runs_finish_rd : ∃ u, Runs s.cfg master [.command (.finish d), .rd .res] t u ∧
    u.err = .ok ∧ u.res = finalize desc reg ∧ u.replies = ⟨master, finalize desc reg⟩ :: s.replies ∧
    u.ctx d = .active desc desc.tableOf reg len := by
  obtain ⟨hcfg, hr, hreplies, -, hctx⟩ := ht
  refine ⟨{ t.setRes (finalize desc reg) with
      err := .ok, replies := ⟨master, finalize desc reg⟩ :: t.replies }, ?_, rfl, rfl, by rw [hreplies], hctx⟩
  rw [← hcfg] at hd ⊢
  have hfinish : Runs t.cfg master [.command (.finish d)] t { t.setRes (finalize desc reg) with err := .ok } :=
    runs_command hr (by simpa [Instr.wf] using hd) fun rest =>
      withInstance_active (s := { t with pending := rest }) hctx _
  exact hfinish.append (runs_rd_res (s := { t.setRes (finalize desc reg) with err := .ok }) hr)

end Program

end Sys2Proof.Machine

/-! SUPPORT. The obligation about the pseudo-instruction `crc` (R88). -/

namespace Sys2Proof.Proofs

open Sys2Proof.Machine

/-- Settles O57, statement by statement: `create`, the groups of `update`, FINISH and the read of RES. -/
theorem crcProgramReturnsTheChecksum : Obligations.CrcProgramReturnsTheChecksum := by
  intro s d desc bytes prior master _ hr hd hctx events seed checksum
  obtain ⟨t, hcreate, ht⟩ : ∃ t, Runs s.cfg master
      (match prior with | none => createStmts d | some c => createResumedStmts d c) s t ∧
      Accumulates s d desc seed 0 t := by
    cases prior with
    | none => exact runs_createStmts master hd hr hctx
    | some c => simpa only [truncTo_eq_and] using runs_createResumedStmts master hd hr hctx c
  obtain ⟨u, hupdate, hu⟩ := runs_updateStmts master hd ht bytes
  obtain ⟨w, hfinish, hok, hres, hreplies, hw⟩ := runs_finish_rd master hd hu
  have hrun : Runs s.cfg master (crcStmts d bytes prior) s w := (hcreate.append hupdate).append hfinish
  refine ⟨{ w with pending := [] }, ?_, rfl, hok, hres, hreplies, hw.trans (by simp)⟩
  simpa [events] using hrun []

end Sys2Proof.Proofs

/-! SUPPORT. The bits of a register after one input bit (R101, R102), and the reflected step as the normal one on the
reversed register. -/

namespace Sys2Proof.Machine

theorem getLsbD_stepN {w i : Nat} (hw : w ≤ 64) (hi : i < w) (p r : Word) (b : Bool) :
    (stepN w p r b).getLsbD i =
      ((decide (0 < i) && r.getLsbD (i - 1)) ^^ (p.getLsbD i && (r.getLsbD (w - 1) ^^ b))) := by
  have hshift : (truncTo w (r <<< 1)).getLsbD i = (decide (0 < i) && r.getLsbD (i - 1)) := by
    have hi64 : i < 64 := by omega
    rw [getLsbD_truncTo, BitVec.getLsbD_shiftLeft]
    cases i <;> simp [hi, hi64]
  unfold stepN
  cases r.getLsbD (w - 1) ^^ b <;> simp [hshift]

theorem getLsbD_stepR {w i : Nat} (hw : w ≤ 64) (hi : i < w) (p r : Word) (b : Bool) :
    (stepR (rev w p) r b).getLsbD i =
      (r.getLsbD (i + 1) ^^ (p.getLsbD (w - 1 - i) && (r.getLsbD 0 ^^ b))) := by
  unfold stepR
  cases r.getLsbD 0 ^^ b <;> simp [getLsbD_rev hw, hi, Nat.add_comm 1 i]

/-- The reflected step is the normal step on the reversed register: the two divisions are mirror images (R102). -/
theorem rev_stepR {w : Nat} (h1 : 1 ≤ w) (hw : w ≤ 64) {p r : Word} (hp : Fits w p) (hr : Fits w r) (b : Bool) :
    rev w (stepR (rev w p) r b) = stepN w p (rev w r) b := by
  apply BitVec.eq_of_getLsbD_eq
  intro i _
  by_cases hi : i < w
  · have hnext : (decide (0 < i) && (rev w r).getLsbD (i - 1)) = r.getLsbD (w - 1 - i + 1) := by
      cases i with
      | zero => simpa using (fits_iff.mp hr (w - 1 + 1) (by omega)).symm
      | succ i => simp [getLsbD_rev hw, show i < w by omega, show w - 1 - (i + 1) + 1 = w - 1 - i by omega]
    have hlow : (rev w r).getLsbD (w - 1) = r.getLsbD 0 := by simp [getLsbD_rev hw, show w - 1 < w by omega]
    rw [getLsbD_rev hw, getLsbD_stepR hw (by omega), getLsbD_stepN hw hi, hnext, hlow,
      show w - 1 - (w - 1 - i) = i by omega]
    simp [hi]
  · rw [fits_iff.mp (fits_rev hw _) i (by omega), fits_iff.mp (fits_stepN hp b) i (by omega)]

theorem rev_foldl_stepR {w : Nat} (h1 : 1 ≤ w) (hw : w ≤ 64) {p r : Word} (hp : Fits w p) (hr : Fits w r)
    (bs : List Bool) : rev w (bs.foldl (stepR (rev w p)) r) = bs.foldl (stepN w p) (rev w r) := by
  induction bs generalizing r with
  | nil => rfl
  | cons b bs ih =>
    rw [List.foldl_cons, List.foldl_cons, ih (fits_stepR (fits_rev hw p) hr b), rev_stepR h1 hw hp hr]

end Sys2Proof.Machine

/-! SUPPORT. Words as polynomials over GF(2) (R9): XOR is addition, and a normal step multiplies by x and adds the input
bit at x^W, modulo P(x) (R101). -/

namespace Sys2Proof.Claims

open Sys2Proof.Machine Polynomial

/-! ### The polynomial of a word -/

theorem coeff_polyOf (v : Word) (i : Nat) : (polyOf v).coeff i = if v.getLsbD i then 1 else 0 := by
  have hterm : ∀ j, (if v.getLsbD j then (X : (ZMod 2)[X]) ^ j else 0).coeff i =
      if i = j then (if v.getLsbD j then 1 else 0) else 0 := by
    intro j
    cases v.getLsbD j <;> simp [coeff_X_pow]
  rw [polyOf, finsetSum_coeff]
  simp only [hterm, Finset.sum_ite_eq, Finset.mem_range]
  by_cases hi : i < 64
  · rw [if_pos hi]
  · rw [if_neg hi, BitVec.getLsbD_of_ge v i (by omega)]
    rfl

theorem polyOf_xor (u v : Word) : polyOf (u ^^^ v) = polyOf u + polyOf v := by
  ext i
  rw [coeff_add, coeff_polyOf, coeff_polyOf, coeff_polyOf, BitVec.getLsbD_xor]
  cases u.getLsbD i <;> cases v.getLsbD i <;> decide

@[simp] theorem polyOf_zero : polyOf 0#64 = 0 := by
  simp [polyOf]

theorem degree_polyOf_lt {w : Nat} {v : Word} (hv : Fits w v) : (polyOf v).degree < w := by
  rw [degree_lt_iff_coeff_zero]
  intro i hi
  simp [coeff_polyOf, fits_iff.mp hv i hi]

theorem monic_generatorOf {w : Nat} {p : Word} (hp : Fits w p) : (generatorOf w p).Monic :=
  monic_X_pow_add (degree_polyOf_lt hp)

theorem degree_generatorOf {w : Nat} {p : Word} (hp : Fits w p) : (generatorOf w p).degree = w := by
  have hlow : (polyOf p).degree < ((X : (ZMod 2)[X]) ^ w).degree := by
    rw [degree_X_pow]
    exact degree_polyOf_lt hp
  rw [generatorOf, degree_add_eq_left_of_degree_lt hlow, degree_X_pow]

/-- A register congruent to q modulo P(x) is the remainder of q, because it has W bits. -/
theorem polyOf_eq_modByMonic {w : Nat} {p r : Word} (hp : Fits w p) (hr : Fits w r) {q : (ZMod 2)[X]}
    (h : generatorOf w p ∣ polyOf r - q) : polyOf r = q %ₘ generatorOf w p := by
  have hmonic := monic_generatorOf hp
  have hdegree : (polyOf r).degree < (generatorOf w p).degree := by
    rw [degree_generatorOf hp]
    exact degree_polyOf_lt hr
  rw [← modByMonic_eq_of_dvd_sub hmonic h, (modByMonic_eq_self_iff hmonic).mpr hdegree]

/-! ### One input bit -/

/-- A shift in W bits multiplies by x, and takes x^W away again when the top bit leaves. -/
theorem polyOf_truncTo_shiftLeft {w : Nat} (h1 : 1 ≤ w) (hw : w ≤ 64) {r : Word} (hr : Fits w r) :
    polyOf (truncTo w (r <<< 1)) = X * polyOf r + if r.getLsbD (w - 1) then X ^ w else 0 := by
  rw [← CharTwo.sub_eq_add, eq_sub_iff_add_eq]
  ext i
  have hout : (if r.getLsbD (w - 1) then (X : (ZMod 2)[X]) ^ w else 0).coeff i =
      if i = w ∧ r.getLsbD (w - 1) then 1 else 0 := by
    cases r.getLsbD (w - 1) <;> simp [coeff_X_pow]
  rw [coeff_add, coeff_polyOf, hout, getLsbD_truncTo, BitVec.getLsbD_shiftLeft]
  cases i with
  | zero => simp [show (0 : Nat) ≠ w by omega]
  | succ i =>
    rw [coeff_X_mul, coeff_polyOf]
    obtain hi | hi | hi := Nat.lt_trichotomy (i + 1) w
    · simp [hi, hi.ne, show i + 1 < 64 by omega]
    · subst hi
      simp
    · simp [hi.ne', hi.not_gt, fits_iff.mp hr i (by omega)]

/-- StepN multiplies by x, adds the input bit at x^W, and subtracts P(x) when the feedback bit is 1 (R101). -/
theorem polyOf_stepN {w : Nat} (h1 : 1 ≤ w) (hw : w ≤ 64) (p : Word) {r : Word} (hr : Fits w r) (b : Bool) :
    polyOf (stepN w p r b) = X * polyOf r + (if b then X ^ w else 0) +
      if r.getLsbD (w - 1) ^^ b then generatorOf w p else 0 := by
  have hfeed : polyOf (stepN w p r b) =
      polyOf (truncTo w (r <<< 1)) + if r.getLsbD (w - 1) ^^ b then polyOf p else 0 := by
    unfold stepN
    cases r.getLsbD (w - 1) ^^ b <;> simp [polyOf_xor]
  rw [hfeed, polyOf_truncTo_shiftLeft h1 hw hr, generatorOf]
  cases r.getLsbD (w - 1) <;> cases b <;> simp [add_assoc, CharTwo.add_cancel_left]

theorem dvd_polyOf_stepN {w : Nat} (h1 : 1 ≤ w) (hw : w ≤ 64) (p : Word) {r : Word} (hr : Fits w r) (b : Bool) :
    generatorOf w p ∣ polyOf (stepN w p r b) - (X * polyOf r + if b then X ^ w else 0) := by
  rw [polyOf_stepN h1 hw p hr, add_sub_cancel_left]
  split
  · exact dvd_rfl
  · exact dvd_zero _

/-! ### A run of input bits -/

/-- The polynomial of a list of bits, the highest coefficient first (Horner's rule). -/
noncomputable def polyOfBits (bs : List Bool) : (ZMod 2)[X] :=
  bs.foldl (fun q b => X * q + if b then 1 else 0) 0

@[simp] theorem polyOfBits_nil : polyOfBits [] = 0 := rfl

@[simp] theorem polyOfBits_concat (bs : List Bool) (b : Bool) :
    polyOfBits (bs ++ [b]) = X * polyOfBits bs + if b then 1 else 0 := by
  simp [polyOfBits]

theorem fits_foldl_stepN {w : Nat} {p r : Word} (hp : Fits w p) (hr : Fits w r) (bs : List Bool) :
    Fits w (bs.foldl (stepN w p) r) := by
  induction bs generalizing r with
  | nil => exact hr
  | cons b bs ih => exact ih (fits_stepN hp b)

/-- Dividing a run of input bits, from an empty register, leaves the remainder of bits(x)·x^W (R101). -/
theorem polyOf_foldl_stepN {w : Nat} (h1 : 1 ≤ w) (hw : w ≤ 64) {p : Word} (hp : Fits w p) (bs : List Bool) :
    polyOf (bs.foldl (stepN w p) 0) = (polyOfBits bs * X ^ w) %ₘ generatorOf w p := by
  have hfits := fits_foldl_stepN hp (fits_zero w)
  refine polyOf_eq_modByMonic hp (hfits bs) ?_
  induction bs using List.reverseRecOn with
  | nil => simp
  | append_singleton bs b ih =>
    have hstep := dvd_polyOf_stepN h1 hw p (hfits bs) b
    rw [List.foldl_append, List.foldl_cons, List.foldl_nil, polyOfBits_concat]
    -- one step more, and x times the congruence so far
    convert dvd_add hstep (ih.mul_left X) using 1
    split_ifs <;> ring

/-- A word's polynomial from the word without its lowest bit. -/
theorem polyOf_shiftRight (v : Word) : polyOf v = X * polyOf (v >>> 1) + if v.getLsbD 0 then 1 else 0 := by
  have hlow : ∀ i, (if v.getLsbD 0 then (1 : (ZMod 2)[X]) else 0).coeff i =
      if i = 0 ∧ v.getLsbD 0 then 1 else 0 := by
    intro i
    cases v.getLsbD 0 <;> simp [coeff_one]
  ext i
  rw [coeff_add, hlow, coeff_polyOf]
  cases i with
  | zero => simp
  | succ i => simp [coeff_X_mul, coeff_polyOf, Nat.add_comm 1 i]

/-- The bits of a word from n - 1 down to 0 are the coefficients of its polynomial. -/
theorem polyOfBits_eq_polyOf {n : Nat} {v : Word} (hv : Fits n v) :
    polyOfBits ((List.range n).map fun i => v.getLsbD (n - 1 - i)) = polyOf v := by
  induction n generalizing v with
  | zero =>
    obtain rfl : v = 0 := BitVec.eq_of_toNat_eq (by simpa [Fits] using hv)
    simp
  | succ n ih =>
    have hfits : Fits n (v >>> 1) := fits_iff.mpr fun i hi => by simpa using fits_iff.mp hv (1 + i) (by omega)
    have hbits : (List.range n).map (fun i => v.getLsbD (n + 1 - 1 - i)) =
        (List.range n).map fun i => (v >>> 1).getLsbD (n - 1 - i) := by
      refine List.map_congr_left fun i hi => ?_
      have hi := List.mem_range.mp hi
      rw [BitVec.getLsbD_ushiftRight]
      congr 1
      omega
    rw [polyOf_shiftRight, ← ih hfits, List.range_succ, List.map_append, hbits, List.map_singleton,
      polyOfBits_concat]
    simp

/-! ### One input byte -/

/-- ByteN takes bit 7 first, the byte's highest coefficient (R101). -/
theorem polyOf_byteN {w : Nat} (h1 : 1 ≤ w) (hw : w ≤ 64) {p : Word} (hp : Fits w p) (c : Byte) :
    polyOf (byteN w p 0 c) = (polyOf (c.setWidth 64) * X ^ w) %ₘ generatorOf w p := by
  have hc : Fits 8 (c.setWidth 64) := fits_iff.mpr fun i hi => by simp [hi]
  have hbits : ((List.range 8).map fun i => (c.setWidth 64).getLsbD (8 - 1 - i)) =
      (List.range 8).map fun i => c.getLsbD (7 - i) :=
    List.map_congr_left fun i _ => by simp [show 7 - i < 64 by omega]
  rw [← polyOfBits_eq_polyOf hc, hbits, ← polyOf_foldl_stepN h1 hw hp, byteN_eq_foldl]

/-- ByteR takes bit 0 first, the highest coefficient of the reversed byte (R102). -/
theorem polyOf_rev_byteR {w : Nat} (h1 : 1 ≤ w) (hw : w ≤ 64) {p : Word} (hp : Fits w p) (c : Byte) :
    polyOf (rev w (byteR (rev w p) 0 c)) = (polyOf (rev 8 (c.setWidth 64)) * X ^ w) %ₘ generatorOf w p := by
  have hc : Fits 8 (rev 8 (c.setWidth 64)) := fits_rev (by decide) _
  have hbits : ((List.range 8).map fun i => (rev 8 (c.setWidth 64)).getLsbD (8 - 1 - i)) =
      (List.range 8).map fun i => c.getLsbD i := by
    refine List.map_congr_left fun i hi => ?_
    have hi : i < 8 := List.mem_range.mp hi
    rw [getLsbD_rev (by decide), show 8 - 1 - (8 - 1 - i) = i by omega, BitVec.getLsbD_setWidth]
    simp [show 7 - i < 8 by omega, show i < 64 by omega]
  have hzero : rev w 0 = 0 := rev_zero w
  rw [← polyOfBits_eq_polyOf hc, hbits, ← polyOf_foldl_stepN h1 hw hp, byteR_eq_foldl,
    rev_foldl_stepR h1 hw hp (fits_zero w), hzero]

end Sys2Proof.Claims

/-! SUPPORT. The obligations about the division and its table (R101 to R105). -/

namespace Sys2Proof.Proofs

open Sys2Proof.Machine Sys2Proof.Claims

/-- Settles O44: each step bit by bit, and the bytes' orders by definition. -/
theorem bitStepsDivide : Obligations.BitStepsDivide := by
  intro w p r b _ hw hp hr
  exact ⟨fun i hi => getLsbD_stepN hw hi p r b, fun i hi => getLsbD_stepR hw hi p r b, fits_stepN hp b,
    fits_stepR (fits_rev hw p) hr b, fun _ => rfl, fun _ => rfl⟩

/-- Settles O45: an entry is the byte step from an empty register, which is linear and leaves the byte's
remainder. -/
theorem tableLaws : Obligations.TableLaws := by
  intro w p ri h1 hw hp _
  simp only [entry_tableOf]
  refine ⟨byteStep_zero w p ri, fun c => fits_byteStep hw ri hp (fits_zero w) c, fun a b => ?_, ?_, ?_⟩
  · simpa using byteStep_xor w p ri 0 0 a b
  · rintro rfl c
    exact polyOf_byteN h1 hw hp c
  · rintro rfl c
    exact polyOf_rev_byteR h1 hw hp c

end Sys2Proof.Proofs

/-! SUPPORT. What a command of a given row decodes from (R83, R86), and what its state check answers on each context. -/

namespace Sys2Proof

/-- A command decodes from its own encoding and from nothing else, where the contexts that it names exist. -/
theorem decode_eq_ok_iff {n : Nat} {v : Word} {i : Instr} :
    decode n v = .ok i ↔ i.wf n = true ∧ v = encode i := by
  constructor
  · intro h
    exact ⟨decode_wf h, (encode_of_decode h).symm⟩
  · rintro ⟨hwf, rfl⟩
    exact decode_encode hwf

end Sys2Proof

namespace Sys2Proof.Machine

theorem commandWrite_of_error {v : Word} {s : State} {x : DecodeError} (h : decode s.cfg.nctx v = .error x) :
    commandWrite v s = raiseError .illegalCommand s := by
  simp only [commandWrite, h]

/-- Whatever its opcode, a value that decodes to no command raises IllegalCommand (R83). -/
theorem illegalOtherwise (op : Byte) : Claims.IllegalOtherwise op := by
  intro s v _ hnone
  cases h : decode s.cfg.nctx v with
  | ok i => exact absurd h (hnone i)
  | error x => exact commandWrite_of_error h

theorem withInstance_of_not_active {c : CtxIdx} {s : State} (h : (s.ctx c).phase ≠ .active)
    (body : Desc → Table → Word → Word → Result) :
    withInstance c s body = raiseError .unsupportedOperation s := by
  obtain ⟨-, e⟩ | ⟨d, t, reg, len, hctx, -⟩ := withInstance_cases c s body
  · exact e
  · exact absurd (by rw [hctx]; rfl) h

end Sys2Proof.Machine

/-! SUPPORT. The rules behind the commands of 40_descriptor.md: when validation fails (R100), that finalizing undoes
unfinalizing (R145, R146), and what QUERY's flags are (R118). -/

namespace Sys2Proof.Machine

/-- Validation fails on a width out of range and on an even polynomial, and on nothing else (R100). -/
theorem validate_eq_none_iff {width : Byte} {p init x : Word} {ri ro : Bool} :
    validate width p init ri ro x = none ↔ width.toNat < 1 ∨ 64 < width.toNat ∨
      (p &&& BitVec.ofNat 64 (2 ^ width.toNat - 1)).getLsbD 0 = false := by
  simp only [validate, ← truncTo_eq_and]
  split_ifs with hw hodd
  · tauto
  · tauto
  · simp only [false_iff]
    tauto

/-- A valid context that holds a descriptor holds a valid one with its own table (R30, R31). -/
theorem Context.Valid.of_desc {x : Context} {d : Desc} {t : Table} (hx : x.Valid)
    (h : x = .conf d t ∨ ∃ reg len, x = .active d t reg len) : d.Valid ∧ t = d.tableOf := by
  obtain rfl | ⟨reg, len, rfl⟩ := h
  · exact hx
  · obtain ⟨hd, ht, -⟩ := hx
    exact ⟨hd, ht⟩

theorem finalize_unfinalize {d : Desc} (hd : d.Valid) {c : Word} (hc : Fits d.width c) :
    finalize d (unfinalize d c) = c := by
  obtain ⟨-, hw, -, -, -, hxor⟩ := hd
  unfold finalize unfinalize
  cases d.refIn ^^ d.refOut
  · simp
  · simp [rev_rev hw (fits_xor hc hxor)]

/-- RO and RI as QUERY answers them, RO in bit 1 and RI in bit 0 (R118). -/
theorem queryValue_flags (d : Desc) (reg len : Word) :
    queryValue .flags d reg len = BitVec.ofNat 64 (2 * d.refOut.toNat + d.refIn.toNat) := by
  unfold queryValue
  cases d.refOut <;> cases d.refIn <;> rfl

/-- COMPAT's answer is 0 or 1 by whether both contexts hold one descriptor (R113, R114). -/
theorem exec_compat_of_compatible {s : State} {d src : CtxIdx} {a : Desc} (hd : (s.ctx d).desc? = some a)
    (hsrc : (s.ctx src).desc? = some a) : exec (.compat d src) s = .next { s with res := 1, err := .ok } := by
  have h : compatible (s.ctx d) (s.ctx src) = true := compatible_iff.mpr ⟨a, hd, hsrc⟩
  simp only [exec, execCompat, h, if_true]
  rfl

theorem exec_compat_of_incompatible {s : State} {d src : CtxIdx}
    (h : ¬ ∃ a, (s.ctx d).desc? = some a ∧ (s.ctx src).desc? = some a) :
    exec (.compat d src) s = .next { s with res := 0, err := .ok } := by
  simp only [exec, execCompat, compatible_iff, h, if_false]
  rfl

end Sys2Proof.Machine

/-! SUPPORT. The obligations about the commands that create or inspect a context (40_descriptor.md). -/

namespace Sys2Proof.Proofs

open Sys2Proof.Machine

/-- Settles O3, by whether validation accepts the operands. -/
theorem configLoadsDescriptorOrChangesNothing : Obligations.ConfigLoadsDescriptorOrChangesNothing := by
  intro s d width ri ro w mask
  refine ⟨fun hbad => ?_, fun h1 h64 hodd => ?_, fun n v => ?_, illegalOtherwise _⟩
  · have hnone : validate width s.arg0 s.arg1 ri ro s.arg2 = none := validate_eq_none_iff.mpr hbad
    simp only [exec, execConfig, hnone]
  · have hsome : validate width s.arg0 s.arg1 ri ro s.arg2 ≠ none := by
      rw [ne_eq, validate_eq_none_iff, not_or, not_or, Bool.not_eq_false]
      exact ⟨Nat.not_lt.mpr h1, Nat.not_lt.mpr h64, hodd⟩
    obtain ⟨desc, hdesc⟩ := Option.ne_none_iff_exists'.mp hsome
    refine ⟨tableOf w (s.arg0 &&& mask) ri, entry_tableOf _ _ _, ?_⟩
    obtain rfl := eq_of_validate hdesc
    simp only [exec, execConfig, hdesc]
    rfl
  · simp [decode_eq_ok_iff, Instr.wf, encode, Opcode.code]

/-- Settles O4. -/
theorem startSeedsFromInit : Obligations.StartSeedsFromInit := by
  intro s d
  refine ⟨fun h => withVariant_unconf h _, fun desc table h => withVariant_of_desc h _, fun n v => ?_,
    illegalOtherwise _⟩
  simp [decode_eq_ok_iff, Instr.wf, encode, Opcode.code]

/-- Settles O5; FINISH undoes the unfinalization that RESUME did. -/
theorem resumeContinuesFromChecksum : Obligations.ResumeContinuesFromChecksum := by
  intro s d
  simp only [← truncTo_eq_and]
  refine ⟨fun h => withVariant_unconf h _, fun desc table h => withVariant_of_desc h _,
    fun desc table t u hvalid h ht hu => ?_, fun n v => ?_, illegalOtherwise _⟩
  · obtain rfl := succeed_next.mp ((withVariant_of_desc h _).symm.trans ht)
    have hctx := State.ctx_setCtx_self s d (.active desc table (unfinalize desc (s.maskedArg0 desc)) 0)
    obtain rfl := succeed_next.mp ((withInstance_active hctx _).symm.trans hu)
    exact finalize_unfinalize hvalid (fits_truncTo _ _)
  · simp [decode_eq_ok_iff, Instr.wf, encode, Opcode.code]

/-- Settles O13, from when two contexts are compatible. -/
theorem compatComparesDescriptors : Obligations.CompatComparesDescriptors := by
  intro s d src
  refine ⟨fun a b ha hb h1 h2 h3 h4 h5 h6 => ?_, fun a b ha hb hne => ?_, fun h => ?_, fun n v => ?_,
    illegalOtherwise _⟩
  · obtain rfl : a = b := by
      cases a
      cases b
      simp_all
    exact exec_compat_of_compatible ha hb
  · refine exec_compat_of_incompatible ?_
    rintro ⟨c, hc, hc'⟩
    obtain rfl : a = c := Option.some.inj (ha.symm.trans hc)
    obtain rfl : b = a := Option.some.inj (hb.symm.trans hc')
    simp at hne
  · refine exec_compat_of_incompatible ?_
    rintro ⟨c, hc, hc'⟩
    obtain h | h := h <;> simp [h, Context.desc?] at hc hc'
  · simp [decode_eq_ok_iff, Instr.wf, encode, Opcode.code, and_assoc]

/-- Settles O14; a valid context's table is the one that R105's laws are about. -/
theorem tblrdReturnsTableEntry : Obligations.TblrdReturnsTableEntry := by
  intro s d k
  refine ⟨fun h => withVariant_unconf h _, fun desc table h => withVariant_of_desc h _,
    fun desc table t hvalid h ht => ?_, fun n v => ?_, illegalOtherwise _⟩
  · obtain rfl := succeed_next.mp ((withVariant_of_desc h _).symm.trans ht)
    obtain ⟨hd, rfl⟩ := hvalid.of_desc h
    refine ⟨?_, fits_entry_tableOf hd k⟩
    rintro rfl
    exact (entry_tableOf _ _ _ _).trans (byteStep_zero _ _ _)
  · simp [decode_eq_ok_iff, Instr.wf, encode, Opcode.code]

/-- Settles O15, selector by selector. -/
theorem queryReturnsSelectedField : Obligations.QueryReturnsSelectedField := by
  intro s d
  refine ⟨fun q h => withInstance_of_not_active h _, fun desc table reg len h => ?_, fun n v q => ?_,
    fun v hop hsel => ?_, illegalOtherwise _⟩
  · have hquery : ∀ q, exec (.query d q) s = .next { s with res := queryValue q desc reg len, err := .ok } :=
      fun q => withInstance_active h _
    refine ⟨hquery _, hquery _, hquery _, hquery _, ?_, hquery _, hquery _⟩
    rw [hquery, queryValue_flags]
  · cases q <;> simp [decode_eq_ok_iff, Instr.wf, encode, Opcode.code, Selector.code]
  · refine illegalOtherwise 0x0D s v hop fun i hi => ?_
    obtain ⟨-, -, -, op, hof, -, -, -, hbuild⟩ := decode_ok hi
    obtain rfl : .query = op := (Opcode.code_eq_iff hof).mp hop.symm
    obtain ⟨x, hx⟩ := buildInstr_error_iff.mpr (.inr ⟨rfl, hsel⟩)
    cases hbuild.symm.trans hx

end Sys2Proof.Proofs

/-! SUPPORT. The rules of the accumulator (41_accumulate.md): the table-driven update is the bit-serial one (R140),
running bytes is linear over XOR and the engine's Z runs zero bytes (R143, R144, R161), finalizing and unfinalizing are
inverse (R145, R146). -/

namespace Sys2Proof.Machine

/-! ### The table-driven update (R140) -/

/-- The byte enters the update through the table's index alone, and the table is linear (R105). -/
theorem update1_split (d : Desc) (r : Word) (c : Byte) :
    update1 d d.tableOf r c = d.byteStep 0 c ^^^ update1 d d.tableOf r 0 := by
  have hentry : ∀ x : Byte, d.tableOf.entry (x ^^^ c) = d.byteStep 0 c ^^^ d.tableOf.entry x := by
    intro x
    simpa [Desc.tableOf, Desc.byteStep, BitVec.xor_comm] using byteStep_xor d.width d.poly d.refIn 0 0 x c
  unfold update1
  split_ifs <;> simp [hentry, BitVec.xor_assoc]

section Update

variable {d : Desc} (hd : d.Valid) {r : Word} (hr : Fits d.width r)
include hd hr

/-- A zero byte is one table look-up on the bits that leave the register, XORed with the bits that stay: the update. -/
theorem byteStep_zero_eq_update1 : d.byteStep r 0 = update1 d d.tableOf r 0 := by
  obtain ⟨-, hw, -, -, -, -⟩ := hd
  cases hri : d.refIn with
  | true =>
    simpa [Desc.byteStep, byteStep, update1, Desc.tableOf, hri] using byteR_zeroByte (rev d.width d.poly) r
  | false =>
    by_cases h8 : 8 ≤ d.width
    · simpa [Desc.byteStep, byteStep, update1, Desc.tableOf, hri, h8] using byteN_zeroByte_wide h8 hw d.poly hr
    · simpa [Desc.byteStep, byteStep, update1, Desc.tableOf, hri, h8] using
        byteN_zeroByte_narrow (Nat.not_le.mp h8) d.poly hr

theorem update1_eq_byteStep (c : Byte) : update1 d d.tableOf r c = d.byteStep r c := by
  rw [update1_split, ← byteStep_zero_eq_update1 hd hr]
  exact (byteStep_split d.width d.poly d.refIn r c).symm

end Update

/-! ### Running bytes (R143, R144) -/

@[simp] theorem runBytes_nil (d : Desc) (t : Table) (r : Word) : runBytes d t r [] = r := rfl

@[simp] theorem runBytes_cons (d : Desc) (t : Table) (r : Word) (c : Byte) (bytes : List Byte) :
    runBytes d t r (c :: bytes) = runBytes d t (update1 d t r c) bytes := rfl

theorem runBytes_append (d : Desc) (t : Table) (r : Word) (a b : List Byte) :
    runBytes d t r (a ++ b) = runBytes d t (runBytes d t r a) b := List.foldl_append

/-- Two registers side by side, one of them fed the bytes and the other as many zero bytes. -/
theorem runBytes_xor {d : Desc} (hd : d.Valid) (bytes : List Byte) {r u : Word} (hr : Fits d.width r)
    (hu : Fits d.width u) : runBytes d d.tableOf (r ^^^ u) bytes =
      runBytes d d.tableOf r (List.replicate bytes.length 0) ^^^ runBytes d d.tableOf u bytes := by
  induction bytes generalizing r u with
  | nil => rfl
  | cons c bytes ih =>
    have hbyte : update1 d d.tableOf (r ^^^ u) c = update1 d d.tableOf r 0 ^^^ update1 d d.tableOf u c := by
      rw [update1_eq_byteStep hd (fits_xor hr hu), update1_eq_byteStep hd hr, update1_eq_byteStep hd hu]
      simpa [Desc.byteStep] using byteStep_xor d.width d.poly d.refIn r u 0 c
    rw [runBytes_cons, hbyte, ih (fits_update1 hd hr 0) (fits_update1 hd hu c)]
    rfl

/-- The engine's result is as many zero-bit steps as its exact exponent says (R160, R161). -/
theorem zeroShift_eq_iterate {d : Desc} (hd : d.Valid) {r : Word} (hr : Fits d.width r) (n : Word) :
    zeroShift d r n = (fun r => stepBit d.width d.poly d.refIn r false)^[8 * n.toNat] r := by
  obtain ⟨-, hw, hpoly, -, -, -⟩ := hd
  have hfuel : 8 * n.toNat < 2 ^ 67 := by have := n.isLt; omega
  rw [zeroShift, powerApply_eq_iterate _ _ _ _ hfuel]
  generalize 8 * n.toNat = k
  induction k generalizing r with
  | zero => rfl
  | succ k ih =>
    rw [Function.iterate_succ_apply, Function.iterate_succ_apply, mulVec_zeroBitMatrix hw hr,
      ih (fits_stepBit hw _ hpoly hr _)]

theorem runBytes_replicate_zero {d : Desc} (hd : d.Valid) (n : Nat) {r : Word} (hr : Fits d.width r) :
    runBytes d d.tableOf r (List.replicate n 0) =
      (fun r => stepBit d.width d.poly d.refIn r false)^[8 * n] r := by
  induction n generalizing r with
  | zero => rfl
  | succ n ih =>
    rw [List.replicate_succ, runBytes_cons, ih (fits_update1 hd hr 0), update1_eq_byteStep hd hr, Desc.byteStep,
      byteStep_zeroByte, ← Function.iterate_add_apply, ← Nat.mul_succ]

/-- Z(r, n) is the register after n zero bytes (R161). -/
theorem zeroShift_eq_runBytes {d : Desc} (hd : d.Valid) {r : Word} (hr : Fits d.width r) (n : Word) :
    zeroShift d r n = runBytes d d.tableOf r (List.replicate n.toNat 0) := by
  rw [zeroShift_eq_iterate hd hr, runBytes_replicate_zero hd _ hr]

/-! ### Finalization (R145, R146) -/

theorem fits_finalize {d : Desc} (hd : d.Valid) {r : Word} (hr : Fits d.width r) : Fits d.width (finalize d r) := by
  obtain ⟨-, hw, -, -, -, hxor⟩ := hd
  unfold finalize
  split
  · exact fits_xor (fits_rev hw r) hxor
  · exact fits_xor hr hxor

theorem unfinalize_finalize {d : Desc} (hd : d.Valid) {r : Word} (hr : Fits d.width r) :
    unfinalize d (finalize d r) = r := by
  obtain ⟨-, hw, -, -, -, -⟩ := hd
  unfold finalize unfinalize
  cases d.refIn ^^ d.refOut
  · simp
  · simp [rev_rev hw hr]

/-- What finalization makes of the initial register does not depend on RI (R149). -/
theorem finalize_ninit {d : Desc} (hd : d.Valid) :
    finalize d d.ninit = (if d.refOut then rev d.width d.init else d.init) ^^^ d.xorOut := by
  obtain ⟨-, hw, -, -, hinit, -⟩ := hd
  unfold finalize Desc.ninit
  cases d.refIn <;> cases d.refOut <;> simp [rev_rev hw hinit]

end Sys2Proof.Machine

/-! SUPPORT. Update commands on an ACTIVE context: UPDD's corner cases (R142), and feeds one after the other (R143). -/

namespace Sys2Proof.Machine

/-- Writing back what a context holds changes nothing. -/
theorem State.setCtx_of_ctx_eq {s : State} {c : CtxIdx} {x : Context} (h : s.ctx c = x) : s.setCtx c x = s := by
  subst h
  simp [State.setCtx, State.ctx]

/-- UPDD on an ACTIVE context runs lanes 0 to n - 1 of ARG0 (R142). -/
theorem exec_updd_active {s : State} {d : CtxIdx} {desc : Desc} {table : Table} {reg len : Word}
    (h : s.ctx d = .active desc table reg len) (n : Fin 9) :
    exec (.updd d n) s = succeed (s.setCtx d
      (.active desc table (runBytes desc table reg (lanes s.arg0 n.val)) (len + BitVec.ofNat 64 n.val))) :=
  withInstance_active h _

theorem exec_updb_active {s : State} {d : CtxIdx} {desc : Desc} {table : Table} {reg len : Word}
    (h : s.ctx d = .active desc table reg len) (c : Byte) :
    exec (.updb d c) s = succeed (s.setCtx d (.active desc table (update1 desc table reg c) (len + 1))) :=
  withInstance_active h _

theorem exists_of_phase_active {x : Context} (h : x.phase = .active) :
    ∃ desc table reg len, x = .active desc table reg len := by
  cases x with
  | unconf | conf => cases h
  | active desc table reg len => exact ⟨desc, table, reg, len, rfl⟩

end Sys2Proof.Machine

namespace Sys2Proof.Claims

open Sys2Proof.Machine

/-- One feed on an ACTIVE context: its bytes are run and counted, and no other context changes. -/
theorem Feed.perform_active {s : State} {d : CtxIdx} {desc : Desc} {table : Table} {reg len : Word}
    (h : s.ctx d = .active desc table reg len) (f : Feed) :
    ∃ t, f.perform d s = .next t ∧
      t.ctx d = .active desc table (runBytes desc table reg f.bytes) (len + BitVec.ofNat 64 f.bytes.length) ∧
      ∀ c, c ≠ d → t.ctx c = s.ctx c := by
  cases f with
  | byte c =>
    exact ⟨_, exec_updb_active h c, State.ctx_setCtx_self s d _, fun e he => State.ctx_setCtx_of_ne s _ he⟩
  | packed v n =>
    have hv : ({ s with arg0 := v } : State).ctx d = .active desc table reg len := h
    refine ⟨_, exec_updd_active hv n, ?_, fun e he => State.ctx_setCtx_of_ne { s with arg0 := v } _ he⟩
    rw [Feed.bytes, List.length_map, List.length_range]
    exact State.ctx_setCtx_self { s with arg0 := v } d _

/-- Feeds one after the other run the concatenation of their bytes, by induction on the list of feeds. -/
theorem feedAll_active {d : CtxIdx} {desc : Desc} {table : Table} (feeds : List Feed) {s : State} {reg len : Word}
    (h : s.ctx d = .active desc table reg len) :
    ∃ t, feedAll d feeds s = .next t ∧
      t.ctx d = .active desc table (runBytes desc table reg (feeds.flatMap Feed.bytes))
        (len + BitVec.ofNat 64 (feeds.flatMap Feed.bytes).length) ∧
      ∀ c, c ≠ d → t.ctx c = s.ctx c := by
  induction feeds generalizing s reg len with
  | nil => exact ⟨s, rfl, by simpa using h, fun _ _ => rfl⟩
  | cons f feeds ih =>
    obtain ⟨t, hrun, hctx, hother⟩ := Feed.perform_active h f
    obtain ⟨u, hruns, hctx', hother'⟩ := ih hctx
    refine ⟨u, by simp only [feedAll, hrun, hruns], ?_, fun c hc => (hother' c hc).trans (hother c hc)⟩
    simpa [runBytes_append, BitVec.ofNat_add, BitVec.add_assoc] using hctx'

end Sys2Proof.Claims

/-! SUPPORT. The output encodings (R148): equal slices of a word, most significant first, are the digits of its value in
a base that is a power of 2. -/

namespace Sys2Proof.Machine

/-- Horner's rule on the n lowest digits of x in base b, the most significant first. -/
theorem foldl_digits (b n x : Nat) :
    (List.range n).foldl (fun acc j => b * acc + x / b ^ (n - 1 - j) % b) 0 = x % b ^ n := by
  induction n generalizing x with
  | zero => simp [Nat.mod_one]
  | succ n ih =>
    have hhigh : (List.range n).foldl (fun acc j => b * acc + x / b ^ (n - j) % b) 0 = x / b % b ^ n := by
      rw [← ih (x / b)]
      refine List.foldl_ext _ _ _ fun acc j hj => ?_
      have hj := List.mem_range.mp hj
      rw [Nat.div_div_eq_div_mul, ← pow_succ', show n - 1 - j + 1 = n - j by omega]
    simp only [List.range_succ, List.foldl_append, Nat.add_sub_cancel, hhigh, List.foldl_cons, List.foldl_nil,
      Nat.sub_self, pow_zero, Nat.div_one]
    rw [pow_succ', Nat.mod_mul, Nat.add_comm]

/-- The slices of k bits of a word below 2^(kn) are the n digits of its value in base 2^k. -/
theorem foldl_extractLsb' {k n : Nat} {v : Word} (hv : Fits (k * n) v) :
    (List.range n).foldl (fun acc j => 2 ^ k * acc + (v.extractLsb' (k * (n - 1 - j)) k).toNat) 0 = v.toNat := by
  have h := foldl_digits (2 ^ k) n v.toNat
  rw [← pow_mul, Nat.mod_eq_of_lt hv] at h
  simpa only [BitVec.extractLsb'_toNat, Nat.shiftRight_eq_div_pow, pow_mul] using h

theorem Fits.mono {w w' : Nat} {v : Word} (hv : Fits w v) (h : w ≤ w') : Fits w' v :=
  Nat.lt_of_lt_of_le hv (Nat.pow_le_pow_right (by decide) h)

/-- The characters of the hexadecimal digits are 0-9a-f, and each stands for its digit. -/
theorem digitChar_hex : ∀ x : BitVec 4,
    (('0' ≤ x.toNat.digitChar ∧ x.toNat.digitChar ≤ '9') ∨
      ('a' ≤ x.toNat.digitChar ∧ x.toNat.digitChar ≤ 'f')) ∧
      (if x.toNat.digitChar ≤ '9' then x.toNat.digitChar.toNat - 48 else x.toNat.digitChar.toNat - 87) = x.toNat := by
  decide

end Sys2Proof.Machine

/-! SUPPORT. The obligations about the accumulator (41_accumulate.md). -/

namespace Sys2Proof.Proofs

open Sys2Proof.Machine Sys2Proof.Claims

/-- Settles O46, from what a zero byte does to the register and the table's linearity. -/
theorem tableUpdateIsBitSerialUpdate : Obligations.TableUpdateIsBitSerialUpdate := by
  intro d r c hd hr
  refine ⟨update1_eq_byteStep hd hr c, fits_update1 hd hr c, fun table => ⟨fun hri => ?_, fun hri h8 => ?_,
    fun hri h8 => ?_⟩⟩
  · simp [update1, hri]
  · simp [update1, hri, h8, truncTo_eq_and]
  · simp [update1, hri, Nat.not_le.mpr h8]

/-- Settles O47, feed by feed. -/
theorem streamingLaw : Obligations.StreamingLaw :=
  ⟨fun d table r a b => ⟨runBytes_append d table r a b, rfl⟩,
    fun feeds _ _ _ _ _ _ h => feedAll_active feeds h⟩

/-- Settles O48: the register on its own sees zero bytes, and the bytes on their own an empty register. -/
theorem linearityLaw : Obligations.LinearityLaw := by
  intro d r bytes hd hr
  have hsplit : runBytes d d.tableOf r bytes =
      runBytes d d.tableOf r (List.replicate bytes.length 0) ^^^ runBytes d d.tableOf 0 bytes := by
    simpa using runBytes_xor hd bytes hr (fits_zero _)
  refine ⟨hsplit, fun hlen => ?_⟩
  rw [hsplit, zeroShift_eq_runBytes hd hr, BitVec.toNat_ofNat, Nat.mod_eq_of_lt hlen]

/-- Settles O52. -/
theorem finalizeAndUnfinalizeAreInverse : Obligations.FinalizeAndUnfinalizeAreInverse := by
  intro d v hd hv
  refine ⟨fits_finalize hd hv, fits_unfinalize hd hv, unfinalize_finalize hd hv, finalize_unfinalize hd hv,
    fun hne => ?_, fun heq => ?_⟩
  · simp [finalize, hne]
  · simp [finalize, heq]

/-- Settles O56: FINISH finalizes the register that START loaded. -/
theorem emptyInputLaw : Obligations.EmptyInputLaw := by
  intro s t u d desc table hd h ht hu
  obtain rfl := succeed_next.mp ((withVariant_of_desc h _).symm.trans ht)
  have hctx := State.ctx_setCtx_self s d (.active desc table desc.ninit 0)
  obtain rfl := succeed_next.mp ((withInstance_active hctx _).symm.trans hu)
  exact ⟨rfl, rfl, finalize_ninit hd⟩

/-- Settles O58: the digest's bytes are digits in base 256, the hexdigest's characters in base 16. -/
theorem digestsSpellTheChecksum : Obligations.DigestsSpellTheChecksum := by
  intro w v _ _ hv
  have hbytes := foldl_extractLsb' (k := 8) (n := (w + 7) / 8) (hv.mono (by omega))
  have hdigits := foldl_extractLsb' (k := 4) (n := (w + 3) / 4) (hv.mono (by omega))
  refine ⟨by simp [digestBytes], ?_, by simp [hexDigest], ?_, fun c hc => ?_⟩
  · simpa [digestBytes, List.foldl_map] using hbytes
  · simp only [hexDigest, List.foldl_map, (digitChar_hex _).right]
    exact hdigits
  · obtain ⟨j, -, rfl⟩ := List.mem_map.mp hc
    exact (digitChar_hex _).left

/-- Settles O6. -/
theorem updbConsumesItsByte : Obligations.UpdbConsumesItsByte := by
  intro s d c
  refine ⟨fun h => withInstance_of_not_active h _, fun desc table reg len h => exec_updb_active h c, fun n v => ?_,
    illegalOtherwise _⟩
  simp [decode_eq_ok_iff, Instr.wf, encode, Opcode.code]

/-- Settles O7; with no lane the context is written back as it was, and with one lane UPDD is UPDB. -/
theorem upddConsumesLanesOfArg0 : Obligations.UpddConsumesLanesOfArg0 := by
  intro s d count
  refine ⟨fun h => withInstance_of_not_active h _, fun desc table reg len h => exec_updd_active h count,
    fun h => ?_, fun h => ?_, fun n v => ?_, illegalOtherwise _⟩
  · obtain ⟨desc, table, reg, len, hctx⟩ := exists_of_phase_active h
    rw [exec_updd_active hctx]
    change succeed (s.setCtx d (.active desc table reg (len + 0#64))) = succeed s
    rw [BitVec.add_zero, State.setCtx_of_ctx_eq hctx]
  · obtain ⟨desc, table, reg, len, hctx⟩ := exists_of_phase_active h
    rw [exec_updd_active hctx, exec_updb_active hctx]
    rfl
  · simp [decode_eq_ok_iff, Instr.wf, encode, Opcode.code]

/-- Settles O8. -/
theorem finishReturnsFinalizedRegister : Obligations.FinishReturnsFinalizedRegister := by
  intro s d
  refine ⟨fun h => withInstance_of_not_active h _,
    fun desc table reg len h => ⟨withInstance_active h _, fun hd hr => fits_finalize hd hr⟩, fun n v => ?_,
    illegalOtherwise _⟩
  simp [decode_eq_ok_iff, Instr.wf, encode, Opcode.code]

end Sys2Proof.Proofs

/-! SUPPORT. The combine engine (42_combine.md) over the accumulator's rules: Z is additive in the register and in the
length (R161), combining registers or checksums is feeding the second block (R163, R164), and what COMBINE and COMBV
answer (R170, R172). -/

namespace Sys2Proof.Machine

/-! ### Z (R161) -/

theorem fits_iterate_stepBit {w : Nat} (hw : w ≤ 64) {p : Word} (hp : Fits w p) (ri : Bool) {r : Word} (hr : Fits w r)
    (k : Nat) : Fits w ((fun v => stepBit w p ri v false)^[k] r) :=
  Function.Iterate.rec (fun v => Fits w v) hr (fun _ hv => fits_stepBit hw ri hp hv false) k

section Engine

variable {d : Desc} (hd : d.Valid)
include hd

theorem zeroShift_zero {r : Word} (hr : Fits d.width r) : zeroShift d r 0 = r :=
  zeroShift_eq_iterate hd hr 0

theorem zeroShift_zero_left (n : Word) : zeroShift d 0 n = 0 := by
  rw [zeroShift_eq_iterate hd (fits_zero _)]
  exact Function.iterate_fixed (stepBit_zero _ _ _) _

/-- Z is linear, since it runs zero bytes (R161). -/
theorem zeroShift_xor {r u : Word} (hr : Fits d.width r) (hu : Fits d.width u) (n : Word) :
    zeroShift d (r ^^^ u) n = zeroShift d r n ^^^ zeroShift d u n := by
  rw [zeroShift_eq_runBytes hd (fits_xor hr hu), runBytes_xor hd _ hr hu, List.length_replicate,
    ← zeroShift_eq_runBytes hd hr, ← zeroShift_eq_runBytes hd hu]

/-- Shifts add while the sum of the lengths does not wrap (R161). -/
theorem zeroShift_zeroShift {r : Word} (hr : Fits d.width r) {m n : Word} (hsum : m.toNat + n.toNat < 2 ^ 64) :
    zeroShift d (zeroShift d r m) n = zeroShift d r (m + n) := by
  have hlen : 8 * (m + n).toNat = 8 * n.toNat + 8 * m.toNat := by
    rw [BitVec.toNat_add_of_lt hsum]
    omega
  rw [zeroShift_eq_iterate hd (fits_zeroShift hd hr m), zeroShift_eq_iterate hd hr, zeroShift_eq_iterate hd hr, hlen,
    Function.iterate_add_apply]

/-! ### Combining (R163, R164) -/

/-- Combining a register with a block's raw register feeds it the block: NINIT enters twice and cancels (R163). -/
theorem combineRaw_runBytes {r : Word} (hr : Fits d.width r) {bytes : List Byte} (hlen : bytes.length < 2 ^ 64) :
    combineRaw d r (BitVec.ofNat 64 bytes.length) (runBytes d d.tableOf d.ninit bytes) =
      runBytes d d.tableOf r bytes := by
  have hninit := fits_ninit hd
  calc zeroShift d (r ^^^ d.ninit) (BitVec.ofNat 64 bytes.length) ^^^ runBytes d d.tableOf d.ninit bytes
      = runBytes d d.tableOf (r ^^^ d.ninit) (List.replicate bytes.length 0) ^^^
          runBytes d d.tableOf d.ninit bytes := by
        rw [zeroShift_eq_runBytes hd (fits_xor hr hninit), BitVec.toNat_ofNat, Nat.mod_eq_of_lt hlen]
    _ = runBytes d d.tableOf (r ^^^ d.ninit ^^^ d.ninit) bytes :=
        (runBytes_xor hd bytes (fits_xor hr hninit) hninit).symm
    _ = runBytes d d.tableOf r bytes := by rw [BitVec.xor_assoc, BitVec.xor_self, BitVec.xor_zero]

/-- Combining the checksums of two blocks gives the checksum of their concatenation (R164). -/
theorem combineFin_checksums (a : List Byte) {b : List Byte} (hlen : b.length < 2 ^ 64) :
    combineFin d (finalize d (runBytes d d.tableOf d.ninit a)) (BitVec.ofNat 64 b.length)
        (finalize d (runBytes d d.tableOf d.ninit b)) =
      finalize d (runBytes d d.tableOf d.ninit (a ++ b)) := by
  have hfits := fits_runBytes hd (fits_ninit hd)
  rw [combineFin, unfinalize_finalize hd (hfits a), unfinalize_finalize hd (hfits b),
    combineRaw_runBytes hd (hfits a) hlen, runBytes_append]

/-- The empty block, of length 0 and raw register NINIT, changes no register (R172, R174). -/
theorem combineRaw_empty {r : Word} (hr : Fits d.width r) : combineRaw d r 0 d.ninit = r :=
  combineRaw_runBytes hd hr (bytes := []) (by decide)

/-- The checksum of the empty block is below 2^W, so that masking it changes nothing, and unfinalizes to NINIT. -/
theorem unfinalize_truncTo_finalize_ninit : unfinalize d (truncTo d.width (finalize d d.ninit)) = d.ninit := by
  rw [truncTo_of_fits (fits_finalize hd (fits_ninit hd)), unfinalize_finalize hd (fits_ninit hd)]

theorem fits_combineFin {cA cB : Word} (hA : Fits d.width cA) (hB : Fits d.width cB) (n : Word) :
    Fits d.width (combineFin d cA n cB) :=
  fits_finalize hd (fits_combineRaw hd (fits_unfinalize hd hA) (fits_unfinalize hd hB) n)

end Engine

/-! ### COMBINE and COMBV on their contexts (R170, R172) -/

theorem exec_combine_of_not_active {s : State} {d src : CtxIdx}
    (h : (s.ctx d).phase ≠ .active ∨ (s.ctx src).phase ≠ .active) :
    exec (.combine d src) s = raiseError .unsupportedOperation s := by
  obtain hd | hsrc := h
  · exact withInstance_of_not_active hd _
  · obtain ⟨-, e⟩ | ⟨desc, table, reg, len, -, e⟩ := withInstance_cases d s _
    · exact e
    · exact e.trans (withInstance_of_not_active hsrc _)

section Active

variable {s : State} {d src : CtxIdx} {descA descB : Desc} {tableA tableB : Table} {regA lenA regB lenB : Word}
  (hd : s.ctx d = .active descA tableA regA lenA)
include hd

theorem exec_combv_active : exec (.combv d) s = succeed (s.setCtx d (.active descA tableA
    (combineRaw descA regA s.arg1 (unfinalize descA (s.maskedArg0 descA))) (lenA + s.arg1))) :=
  withInstance_active hd _

variable (hsrc : s.ctx src = .active descB tableB regB lenB)
include hsrc

/-- On two ACTIVE contexts COMBINE only has to compare the descriptors (R113). -/
theorem exec_combine_active : exec (.combine d src) s =
    if descA = descB then
      succeed (s.setCtx d (.active descA tableA (combineRaw descA regA lenB regB) (lenA + lenB)))
    else raiseError .typeMismatch s := by
  have hcompat : compatible (s.ctx d) (s.ctx src) = true ↔ descA = descB := by
    rw [compatible_iff, hd, hsrc]
    simp [Context.desc?, eq_comm]
  refine (withInstance_active hd _).trans ((withInstance_active hsrc _).trans ?_)
  simp only [hcompat]

end Active

end Sys2Proof.Machine

/-! SUPPORT. Z as multiplication by a power of x modulo P (R161), and the order of x modulo P, which is Z's period
(R165). -/

namespace Sys2Proof.Claims

open Sys2Proof.Machine Polynomial

/-! ### A register in native orientation -/

theorem polyOf_injective : Function.Injective polyOf := by
  intro u v h
  apply BitVec.eq_of_getLsbD_eq
  intro i _
  have hcoeff := congrArg (fun q => q.coeff i) h
  simp only [coeff_polyOf] at hcoeff
  cases hu : u.getLsbD i <;> cases hv : v.getLsbD i <;> simp [hu, hv] at hcoeff ⊢

/-- A register of W bits turned to native orientation has W bits. -/
theorem fits_native {w : Nat} (hw : w ≤ 64) (ri : Bool) {v : Word} (hv : Fits w v) :
    Fits w (if ri then rev w v else v) := by
  cases ri with
  | false => exact hv
  | true => exact fits_rev hw v

theorem nativePolyOf_inj {w : Nat} (hw : w ≤ 64) {ri : Bool} {u v : Word} (hu : Fits w u) (hv : Fits w v)
    (h : nativePolyOf w ri u = nativePolyOf w ri v) : u = v := by
  cases ri with
  | false => exact polyOf_injective h
  | true =>
    have hrev : rev w u = rev w v := polyOf_injective h
    rw [← rev_rev hw hu, hrev, rev_rev hw hv]

section Step

variable {w : Nat} (h1 : 1 ≤ w) (hw : w ≤ 64) {p : Word} (hp : Fits w p) (ri : Bool)
include h1 hw hp

/-- In native orientation a step is the normal one, whatever RI (R101, R102). -/
theorem nativePolyOf_stepBit {r : Word} (hr : Fits w r) (b : Bool) :
    nativePolyOf w ri (stepBit w p ri r b) = polyOf (stepN w p (if ri then rev w r else r) b) := by
  cases ri with
  | false => rfl
  | true => exact congrArg polyOf (rev_stepR h1 hw hp hr b)

/-- The step on a zero bit multiplies by x modulo P(x). -/
theorem dvd_nativePolyOf_stepBit {r : Word} (hr : Fits w r) :
    generatorOf w p ∣ nativePolyOf w ri (stepBit w p ri r false) - X * nativePolyOf w ri r := by
  have h := dvd_polyOf_stepN h1 hw p (fits_native hw ri hr) false
  rwa [← nativePolyOf_stepBit h1 hw hp ri hr, if_neg Bool.false_ne_true, add_zero] at h

/-- k zero bits multiply by x^k modulo P(x): one more step, and x times the congruence so far. -/
theorem dvd_nativePolyOf_iterate {r : Word} (hr : Fits w r) (k : Nat) :
    generatorOf w p ∣
      nativePolyOf w ri ((fun v => stepBit w p ri v false)^[k] r) - nativePolyOf w ri r * X ^ k := by
  induction k with
  | zero => simp
  | succ k ih =>
    have hstep := dvd_nativePolyOf_stepBit h1 hw hp ri (fits_iterate_stepBit hw hp ri hr k)
    rw [Function.iterate_succ_apply']
    convert dvd_add hstep (ih.mul_left X) using 1
    ring

/-- The register after k zero bits is the remainder of r(x)·x^k (R161). -/
theorem nativePolyOf_iterate {r : Word} (hr : Fits w r) (k : Nat) :
    nativePolyOf w ri ((fun v => stepBit w p ri v false)^[k] r) =
      (nativePolyOf w ri r * X ^ k) %ₘ generatorOf w p :=
  polyOf_eq_modByMonic hp (fits_native hw ri (fits_iterate_stepBit hw hp ri hr k))
    (dvd_nativePolyOf_iterate h1 hw hp ri hr k)

/-- Where x^k is 1 modulo P(x), k zero bits change no register. -/
theorem iterate_stepBit_of_dvd {k : Nat} (hk : generatorOf w p ∣ X ^ k - 1) {r : Word} (hr : Fits w r) :
    (fun v => stepBit w p ri v false)^[k] r = r := by
  refine nativePolyOf_inj hw (ri := ri) (fits_iterate_stepBit hw hp ri hr k) hr ?_
  rw [nativePolyOf_iterate h1 hw hp ri hr]
  refine (polyOf_eq_modByMonic hp (fits_native hw ri hr) ?_).symm
  rw [dvd_sub_comm]
  convert hk.mul_left (nativePolyOf w ri r) using 1
  rw [nativePolyOf]
  ring

end Step

/-! ### The order of x modulo P -/

/-- P(x) has the constant term 1, so that x is invertible modulo P(x). -/
theorem isUnit_root_generatorOf {w : Nat} (h1 : 1 ≤ w) {p : Word} (hodd : p.getLsbD 0 = true) :
    IsUnit (AdjoinRoot.root (generatorOf w p)) := by
  have hsplit : generatorOf w p = X * (X ^ (w - 1) + polyOf (p >>> 1)) + 1 := by
    rw [generatorOf, polyOf_shiftRight p, if_pos hodd, mul_add, ← pow_succ', Nat.sub_add_cancel h1, add_assoc]
  have hroot : AdjoinRoot.root (generatorOf w p) *
      AdjoinRoot.mk (generatorOf w p) (X ^ (w - 1) + polyOf (p >>> 1)) = 1 := by
    rw [← AdjoinRoot.mk_X, ← map_mul, ← map_one (AdjoinRoot.mk _), AdjoinRoot.mk_eq_mk, CharTwo.sub_eq_add,
      ← hsplit]
  exact .of_mul_eq_one _ hroot

/-- The residues modulo P(x) are 2^W, and 0 is no power of x, so x has an order below 2^W. -/
theorem exists_order_of_X {w : Nat} (h1 : 1 ≤ w) {p : Word} (hp : Fits w p) (hodd : p.getLsbD 0 = true) :
    ∃ k, 0 < k ∧ k < 2 ^ w ∧ generatorOf w p ∣ X ^ k - 1 := by
  have hmonic := monic_generatorOf hp
  have hdegree := natDegree_eq_of_degree_eq_some (degree_generatorOf hp)
  have hfinite := hmonic.finite_adjoinRoot
  have hrank : Module.finrank (ZMod 2) (AdjoinRoot (generatorOf w p)) = w :=
    finrank_quotient_span_eq_natDegree.trans hdegree
  have hcard : Nat.card (AdjoinRoot (generatorOf w p)) = 2 ^ w := by
    rw [Module.natCard_eq_pow_finrank (K := ZMod 2), Nat.card_zmod, hrank]
  have hfin : Finite (AdjoinRoot (generatorOf w p)) := Module.finite_of_finite (ZMod 2)
  have hnontrivial : Nontrivial (AdjoinRoot (generatorOf w p)) := by
    rw [← Finite.one_lt_card_iff_nontrivial, hcard]
    exact Nat.one_lt_two_pow (by omega)
  refine ⟨orderOf (AdjoinRoot.root (generatorOf w p)), ?_, hcard ▸ orderOf_lt_card _, ?_⟩
  · rw [← (isUnit_root_generatorOf h1 hodd).unit_spec, orderOf_units]
    exact orderOf_pos _
  · rw [← AdjoinRoot.mk_eq_mk, map_pow, AdjoinRoot.mk_X, pow_orderOf_eq_one, map_one]

end Sys2Proof.Claims

/-! SUPPORT. The obligations about the combine engine (42_combine.md). -/

namespace Sys2Proof.Proofs

open Sys2Proof.Machine Sys2Proof.Claims

/-- Settles O9, from the comparison of the two descriptors. -/
theorem combineMergesSourceIntoDestination : Obligations.CombineMergesSourceIntoDestination := by
  intro s d src
  refine ⟨exec_combine_of_not_active, fun descA descB tableA tableB regA lenA regB lenB hd hsrc => ⟨?_, ?_⟩,
    fun t hne ht => exec_ctx_of_not_loaded ht nofun fun ph hload => ?_, fun n v => ?_, illegalOtherwise _⟩
  · intro hdesc
    rw [exec_combine_active hd hsrc, if_neg hdesc]
  · intro hdesc
    rw [exec_combine_active hd hsrc, if_pos hdesc]
    rfl
  · cases hload
    exact hne rfl
  · simp [decode_eq_ok_iff, Instr.wf, encode, Opcode.code, and_assoc]

/-- Settles O10; the empty block's checksum unfinalizes to NINIT, and the context is written back as it was. -/
theorem combvMergesChecksumIntoContext : Obligations.CombvMergesChecksumIntoContext := by
  intro s d
  simp only [← truncTo_eq_and]
  refine ⟨fun h => withInstance_of_not_active h _, fun desc table reg len h => exec_combv_active h,
    fun desc table reg len h hd hreg hlen hsum => ?_, fun n v => ?_, illegalOtherwise _⟩
  · have hmasked : s.maskedArg0 desc = truncTo desc.width (finalize desc desc.ninit) := by
      rw [State.maskedArg0, hsum]
    have hself : s.setCtx d (.active desc table reg (len + 0)) = s :=
      State.setCtx_of_ctx_eq (by rw [h, BitVec.ofNat_eq_ofNat, BitVec.add_zero])
    have hexec : exec (.combv d) s = succeed s := by
      rw [exec_combv_active h, hmasked, unfinalize_truncTo_finalize_ninit hd, hlen, combineRaw_empty hd hreg, hself]
    exact hexec
  · simp [decode_eq_ok_iff, Instr.wf, encode, Opcode.code]

/-- Settles O11; the empty block's checksum unfinalizes to NINIT. -/
theorem combfReturnsPureCombination : Obligations.CombfReturnsPureCombination := by
  intro s d
  simp only [← truncTo_eq_and]
  refine ⟨fun h => withVariant_unconf h _, fun desc table h => ⟨withVariant_of_desc h _, fun hd => ?_,
    fun hd hlen hsum => ?_⟩, fun n v => ?_, illegalOtherwise _⟩
  · exact fits_combineFin hd (fits_truncTo _ _) (fits_truncTo _ _) _
  · have hA := fits_truncTo desc.width s.arg0
    rw [combineFin, hlen, hsum, unfinalize_truncTo_finalize_ninit hd, combineRaw_empty hd (fits_unfinalize hd hA),
      finalize_unfinalize hd hA]
  · simp [decode_eq_ok_iff, Instr.wf, encode, Opcode.code]

/-- Settles O12: the engine's repeated squaring is the iterate of the zero-bit step. -/
theorem shiftReturnsZeroShiftedRegister : Obligations.ShiftReturnsZeroShiftedRegister := by
  intro s d
  simp only [← truncTo_eq_and]
  refine ⟨fun h => withVariant_unconf h _, fun desc table hd h => ?_, fun n v => ?_, illegalOtherwise _⟩
  · rw [← zeroShift_eq_iterate hd (fits_truncTo _ _)]
    exact withVariant_of_desc h _
  · simp [decode_eq_ok_iff, Instr.wf, encode, Opcode.code]

/-- Settles O49. -/
theorem zeroShiftRunsZeroBytes : Obligations.ZeroShiftRunsZeroBytes := by
  intro d r u n m hd hr hu
  exact ⟨zeroShift_eq_runBytes hd hr n, zeroShift_zero hd hr, zeroShift_zero_left hd n, zeroShift_xor hd hr hu n,
    zeroShift_zeroShift hd hr⟩

/-- Settles O50: each of the 8n zero bits multiplies by x. -/
theorem zeroShiftMultipliesByPowerOfX : Obligations.ZeroShiftMultipliesByPowerOfX := by
  intro d r n hd hr
  refine ⟨fits_zeroShift hd hr n, ?_⟩
  rw [zeroShift_eq_iterate hd hr]
  obtain ⟨h1, hw, hp, -, -, -⟩ := hd
  exact nativePolyOf_iterate h1 hw hp d.refIn hr _

/-- Settles O51: the period is the order of x modulo P, and the only order that W = 1 leaves is 1. -/
theorem zeroShiftIsPeriodic : Obligations.ZeroShiftIsPeriodic := by
  intro d hd
  have ⟨h1, hw, hp, hodd, _, _⟩ := hd
  obtain ⟨period, hpos, hlt, hdvd⟩ := exists_order_of_X h1 hp hodd
  have hfix : ∀ r, Fits d.width r → (fun v => stepBit d.width d.poly d.refIn v false)^[period] r = r :=
    fun r hr => iterate_stepBit_of_dvd h1 hw hp d.refIn hdvd hr
  have hperiodic : ∀ (r : Word) (n : Nat), Fits d.width r →
      (fun v => stepBit d.width d.poly d.refIn v false)^[8 * (n + period)] r =
        (fun v => stepBit d.width d.poly d.refIn v false)^[8 * n] r := by
    intro r n hr
    have hperiods : (fun v => stepBit d.width d.poly d.refIn v false)^[8 * period] r = r :=
      Function.IsPeriodicPt.const_mul (hfix r hr) 8
    rw [Nat.mul_add, Function.iterate_add_apply, hperiods]
  refine ⟨⟨period, hpos, hlt, hperiodic, fun r n m hr hm => ?_⟩, fun hwidth r n hr => ?_⟩
  · rw [zeroShift_eq_iterate hd hr, zeroShift_eq_iterate hd hr, hm, hperiodic r _ hr]
  · rw [← hwidth] at hr
    obtain rfl : period = 1 := by
      rw [hwidth] at hlt
      omega
    rw [zeroShift_eq_iterate hd hr]
    exact Function.iterate_fixed (hfix r hr) _

/-- Settles O53: the second form by linearity, and the concatenation because NINIT cancels. -/
theorem combineRawIsConcatenation : Obligations.CombineRawIsConcatenation := by
  refine ⟨fun d rA rB n hd hA => ⟨rfl, ?_⟩, fun d a b hd hlen => ?_⟩
  · rw [combineRaw, zeroShift_xor hd hA (fits_ninit hd)]
  · rw [combineRaw_runBytes hd (fits_runBytes hd (fits_ninit hd) a) hlen, runBytes_append]

/-- Settles O54. -/
theorem combineFinIsConcatenation : Obligations.CombineFinIsConcatenation :=
  ⟨fun _ _ _ _ => rfl, fun _ a _ hd hlen => combineFin_checksums hd a hlen⟩

/-- Settles O55: both ways of combining three checksums give the checksum of a ++ b ++ c, and COMBINE's source holds
the raw register of its bytes. -/
theorem combinationLaws : Obligations.CombinationLaws := by
  refine ⟨fun d a b c hd hlen => ?_, fun s t d src desc reg len bytes hd hreg hlen hctx hsrc ht => ?_⟩
  · have hbc : (b ++ c).length < 2 ^ 64 := by rwa [List.length_append]
    have hsize : BitVec.ofNat 64 b.length + BitVec.ofNat 64 c.length = BitVec.ofNat 64 (b ++ c).length := by
      rw [List.length_append, BitVec.ofNat_add]
    simp only
    rw [combineFin_checksums hd a (by omega), combineFin_checksums hd (a ++ b) (by omega),
      combineFin_checksums hd b (by omega), hsize, combineFin_checksums hd a hbc, List.append_assoc]
  · rw [exec_combine_active hctx hsrc, if_pos rfl, combineRaw_runBytes hd hreg hlen] at ht
    obtain rfl := succeed_next.mp ht
    exact State.ctx_setCtx_self s d _

end Sys2Proof.Proofs

/-! SUPPORT. The rules of the two commands without operands (43_control.md): the one value that each is written with, and
what the device reset of SRST and of the reset input leaves to read in STATUS. -/

namespace Sys2Proof.Machine

/-- A row of the opcode map without operands has one legal value; with its opcode, any other is illegal (R83). -/
theorem commandWrite_of_ne_encode {op : Opcode} {i : Instr} (hbuild : ∀ v, buildInstr op v = .ok i) {s : State}
    {v : Word} (hop : fieldOp v = op.code) (hv : v ≠ encode i) :
    commandWrite v s = raiseError .illegalCommand s := by
  refine illegalOtherwise op.code s v hop fun j hj => hv ?_
  obtain ⟨-, -, -, op', hof, -, -, -, hbuild'⟩ := decode_ok hj
  obtain rfl : op = op' := (Opcode.code_eq_iff hof).mp hop.symm
  have hij : j = i := Except.ok.inj (hbuild'.symm.trans (hbuild v))
  rw [← encode_of_decode hj, hij]

@[simp] theorem State.statusWord_deviceReset (s : State) : s.deviceReset.statusWord = 0 := by
  have hcs : ∀ c, s.deviceReset.csField c = 0 := by
    intro c
    simp [State.csField, Context.phase, Phase.code]
  simp [State.statusWord, hcs, ErrCode.code]

/-- ERR is 0 already, so a completing SRST is the device reset itself (R192). -/
theorem exec_srst (s : State) : exec .srst s = .next s.deviceReset := rfl

end Sys2Proof.Machine

/-! SUPPORT. The obligations about the control commands (43_control.md). -/

namespace Sys2Proof.Proofs

open Sys2Proof.Machine

/-- Settles O1; 0 is the encoding of NOP. -/
theorem nopOnlyClearsErr : Obligations.NopOnlyClearsErr := by
  refine ⟨fun s => rfl, fun n => decode_encode (i := .nop) rfl, fun s v hop hv => ?_⟩
  exact commandWrite_of_ne_encode (op := .nop) (i := .nop) (fun _ => rfl) hop hv

/-- Settles O2; the reset input does the same device reset, and releasing it gives the released level back. -/
theorem srstGivesTheResetState : Obligations.SrstGivesTheResetState := by
  refine ⟨exec_srst, fun s t ht => ?_, fun s t a hreleased ht ha => ?_, fun n => decode_encode (i := .srst) rfl,
    fun s v hop hv => ?_⟩
  · cases ht
    exact ⟨State.statusWord_deviceReset s, rfl⟩
  · cases ht
    cases ha
    have hlevel : { s.deviceReset with resetAsserted := false } = s.deviceReset := by
      rw [← hreleased, ← State.deviceReset_resetAsserted]
    exact congrArg Host.Outcome.next hlevel
  · exact commandWrite_of_ne_encode (op := .srst) (i := .srst) (fun _ => rfl) hop hv

end Sys2Proof.Proofs

/-! SUPPORT. How a command ends (60_exceptions.md): what an error leaves to read in STATUS (R203), the completion code of a
command from the state that it needs (R201), its operands (R100) and its two descriptors (R113); and what an access owes
to the master that makes it (R209). -/

namespace Sys2Proof.Machine

/-! ### The state and STATUS after an error (R203) -/

/-- The sticky bit of error e is bit 7 + e of STATUS, whose sticky bits begin at bit 8. -/
theorem ErrCode.stickyBit_eq_shiftLeft {e : ErrCode} (he : e ≠ .ok) :
    e.stickyBit = (1 : BitVec 4) <<< (e.code.toNat - 1) := by
  cases e with
  | ok => exact absurd rfl he
  | invalidConfig | typeMismatch | unsupportedOperation | illegalCommand => rfl

/-- STATUS with bits 3:0 cleared is STATUS with OK in ERR: no other field has a bit there (R25). -/
theorem statusWord_and_not_errMask (s : State) :
    s.statusWord &&& ~~~(0xF : Word) = State.statusWord { s with err := .ok } := by
  have hmask : ∀ i < 64, (~~~(0xF : Word)).getLsbD i = decide (4 ≤ i) := by decide
  apply BitVec.eq_of_getLsbD_eq
  intro i hi
  rw [BitVec.getLsbD_and, hmask i hi]
  by_cases h4 : 4 ≤ i
  · simp [State.statusWord_getLsbD, State.csField, h4]
  · simp [statusWord_getLsbD_low _ (by omega : i < 16), h4, show ¬ 8 ≤ i by omega, ErrCode.code]

/-- A code that replaces OK and further sticky bits come in as they are. -/
theorem statusWord_or_sticky (s : State) (e : ErrCode) (x : BitVec 4) :
    State.statusWord { s with err := e, sticky := s.sticky ||| x } =
      State.statusWord { s with err := .ok } ||| e.code.setWidth 64 ||| x.setWidth 64 <<< 8 := by
  have hok : ErrCode.ok.code.setWidth 64 = (0 : Word) := rfl
  have hcs : ∀ c, State.csField { s with err := e, sticky := s.sticky ||| x } c =
      State.csField { s with err := .ok } c := fun _ => rfl
  simp only [State.statusWord, hcs, hok, BitVec.setWidth_or, BitVec.shiftLeft_or_distrib]
  ac_rfl

/-- What STATUS reads after error e: bits 3:0 are e, bit 7 + e is set, and the rest is as before (R203). -/
theorem statusWord_of_error (s : State) {e : ErrCode} (he : e ≠ .ok) :
    State.statusWord { s with err := e, sticky := s.sticky ||| e.stickyBit } =
      (s.statusWord &&& ~~~(0xF : Word)) ||| e.code.setWidth 64 ||| ((1 : Word) <<< (7 + e.code.toNat)) := by
  have hbit : e.stickyBit.setWidth 64 <<< 8 = (1 : Word) <<< (7 + e.code.toNat) := by
    cases e with
    | ok => exact absurd rfl he
    | invalidConfig | typeMismatch | unsupportedOperation | illegalCommand => rfl
  rw [statusWord_or_sticky, hbit, statusWord_and_not_errMask]

/-- A CMD write that does not end with OK raised its completion code and did nothing else. -/
theorem eq_raised_of_commandWrite {v : Word} {s t : State} (h : commandWrite v s = .next t) (herr : t.err ≠ .ok) :
    t = { s with err := t.err, sticky := s.sticky ||| t.err.stickyBit } := by
  obtain ⟨i, -, he⟩ | ⟨_, -, rfl⟩ := commandWrite_next h
  · obtain ⟨e, -, rfl⟩ | ⟨d, x, -, rfl⟩ | ⟨x, -, rfl⟩ | ⟨-, rfl⟩ | ⟨-, rfl⟩ := exec_next he
    · rfl
    all_goals exact absurd rfl herr
  · rfl

/-! ### The completion code of a command (R205) -/

theorem commandWrite_of_ok {v : Word} {s : State} {i : Instr} (h : decode s.cfg.nctx v = .ok i) :
    commandWrite v s = exec i s := by
  simp only [commandWrite, h]

theorem Context.eq_unconf_of_phase {x : Context} (h : x.phase = .unconf) : x = .unconf := by
  cases x with
  | unconf => rfl
  | conf | active => cases h

/-- The table of R201: a command without the state that it needs raises UnsupportedOperation. -/
theorem exec_of_lacks {i : Instr} {s : State} (h : i.lacks s = true) :
    exec i s = raiseError .unsupportedOperation s := by
  cases i with
  | nop | config | compat | srst => cases h
  | start d | resume d | tblrd d | shift d | combf d =>
    have hctx : (s.ctx d).phase = .unconf := by simpa [Instr.lacks] using h
    exact withVariant_unconf (Context.eq_unconf_of_phase hctx) _
  | updb d | updd d | finish d | combv d | query d =>
    have hctx : (s.ctx d).phase ≠ .active := by simpa [Instr.lacks] using h
    exact withInstance_of_not_active hctx _
  | combine d src =>
    have hctx : (s.ctx d).phase ≠ .active ∨ (s.ctx src).phase ≠ .active := by simpa [Instr.lacks] using h
    exact exec_combine_of_not_active hctx

theorem withVariant_succeeds {c : CtxIdx} {s : State} {body : Desc → Table → Result}
    (hc : (s.ctx c).phase ≠ .unconf) (h : ∀ d t, ∃ u, body d t = succeed u) :
    ∃ u, withVariant c s body = succeed u := by
  obtain ⟨hctx, -⟩ | ⟨d, t, -, e⟩ := withVariant_cases c s body
  · exact absurd (congrArg Context.phase hctx) hc
  · exact e ▸ h d t

theorem withInstance_succeeds {c : CtxIdx} {s : State} {body : Desc → Table → Word → Word → Result}
    (hc : (s.ctx c).phase = .active) (h : ∀ d t reg len, ∃ u, body d t reg len = succeed u) :
    ∃ u, withInstance c s body = succeed u := by
  obtain ⟨hctx, -⟩ | ⟨d, t, reg, len, -, e⟩ := withInstance_cases c s body
  · exact absurd hc hctx
  · exact e ▸ h d t reg len

/-- Only CONFIG and COMBINE can fail with the state that they need there. -/
theorem exec_succeeds {i : Instr} {s : State} (hl : i.lacks s = false)
    (hconfig : ∀ d width ri ro, i ≠ .config d width ri ro) (hcombine : ∀ d src, i ≠ .combine d src) :
    ∃ u, exec i s = succeed u := by
  cases i with
  | config => exact absurd rfl (hconfig _ _ _ _)
  | combine => exact absurd rfl (hcombine _ _)
  | nop | compat | srst => exact ⟨_, rfl⟩
  | start | resume | tblrd | shift | combf =>
    exact withVariant_succeeds (by simpa [Instr.lacks] using hl) fun _ _ => ⟨_, rfl⟩
  | updb | updd | finish | combv | query =>
    exact withInstance_succeeds (by simpa [Instr.lacks] using hl) fun _ _ _ _ => ⟨_, rfl⟩

/-- CONFIG's code is that of validation (R100). -/
theorem execConfig_err {d : CtxIdx} {width : Byte} {ri ro : Bool} {s t : State}
    (h : exec (.config d width ri ro) s = .next t) :
    t.err = if validate width s.arg0 s.arg1 ri ro s.arg2 = none then .invalidConfig else .ok := by
  simp only [exec, execConfig] at h
  split at h
  · next hnone => rw [raiseError_next.mp h, if_pos hnone]
  · next hsome => rw [succeed_next.mp h, if_neg (by simp [hsome])]

/-- COMBINE's code on two ACTIVE contexts (R113, R170). -/
theorem execCombine_err {d src : CtxIdx} {s t : State} (hd : (s.ctx d).phase = .active)
    (hsrc : (s.ctx src).phase = .active) (h : exec (.combine d src) s = .next t) :
    t.err = if (s.ctx d).desc? = (s.ctx src).desc? then .ok else .typeMismatch := by
  obtain ⟨descA, tableA, regA, lenA, hA⟩ := exists_of_phase_active hd
  obtain ⟨descB, tableB, regB, lenB, hB⟩ := exists_of_phase_active hsrc
  rw [exec_combine_active hA hB] at h
  rw [hA, hB]
  by_cases hdesc : descA = descB
  · rw [if_pos hdesc] at h
    simp [succeed_next.mp h, Context.desc?, hdesc]
  · rw [if_neg hdesc] at h
    simp [raiseError_next.mp h, Context.desc?, hdesc]

/-! ### Who asks (R209) -/

theorem AccessOp.exists_write {op : AccessOp} (h : op ≠ .read) : ∃ v, op = .write v := by
  cases op with
  | read => exact absurd rfl h
  | write v => exact ⟨v, rfl⟩

/-- Only the answer of an admitted read goes by the master. -/
theorem performAccess_withMaster {a : Access} {s : State} (m : Nat)
    (h : ∀ r, s.resetAsserted = false → a.target s.cfg = some r → a.op ≠ .read) :
    performAccess { a with master := m } s = performAccess a s := by
  have htarget : Access.target { a with master := m } s.cfg = a.target s.cfg := rfl
  have htouches : Access.touches { a with master := m } s.cfg = a.touches s.cfg := rfl
  cases hr : s.resetAsserted with
  | true => simp [performAccess, hr]
  | false =>
    cases ht : a.target s.cfg with
    | none => simp [performAccess, hr, htarget, ht, htouches]
    | some r =>
      obtain ⟨v, hop⟩ := AccessOp.exists_write (h r hr ht)
      exact (performAccess_of_write hr (htarget.trans ht) hop).trans (performAccess_of_write hr ht hop).symm

end Sys2Proof.Machine

/-! SUPPORT. The obligations about errors and completion codes (60_exceptions.md). -/

namespace Sys2Proof.Proofs

open Sys2Proof.Machine

/-- Settles O16. -/
theorem everyCommandWriteCompletes : Obligations.EveryCommandWriteCompletes :=
  ⟨fun i s => effect_next (exec_effect i s), commandWrite_completes⟩

/-- Settles O17: an error is the one operation of R203, whose sticky bit is bit 7 + e of STATUS. -/
theorem errorChangesOnlyStatus : Obligations.ErrorChangesOnlyStatus := by
  intro s t v h herr
  have ht := eq_raised_of_commandWrite h herr
  refine ⟨?_, ?_⟩
  · rw [← ErrCode.stickyBit_eq_shiftLeft herr]
    exact ht
  · exact (congrArg State.statusWord ht).trans (statusWord_of_error s herr)

/-- Settles O18, check by check in the order of R205. -/
theorem completionCodeFollowsPriority : Obligations.CompletionCodeFollowsPriority := by
  intro s t v h
  cases hdecode : decode s.cfg.nctx v with
  | error x =>
    rw [commandWrite_of_error hdecode] at h
    rw [raiseError_next.mp h]
  | ok i =>
    rw [commandWrite_of_ok hdecode] at h
    cases hl : i.lacks s with
    | true =>
      rw [exec_of_lacks hl] at h
      simp only [hl, if_true, raiseError_next.mp h]
    | false =>
      simp only [hl, Bool.false_eq_true, if_false]
      split
      · simpa only [validate_eq_none_iff] using execConfig_err h
      · next d src =>
        obtain ⟨hd, hsrc⟩ : (s.ctx d).phase = .active ∧ (s.ctx src).phase = .active := by
          simpa [Instr.lacks] using hl
        exact execCombine_err hd hsrc h
      · next hconfig hcombine =>
        obtain ⟨u, hu⟩ := exec_succeeds hl hconfig hcombine
        rw [succeed_next.mp (hu.symm.trans h)]

/-- Settles O36: a write and a fault say nothing of the master, and a read's datum is the register's. -/
theorem mastersAreNotToldApart : Obligations.MastersAreNotToldApart := by
  intro s a m
  refine ⟨fun v hop => ?_, fun t hop ht => ?_, fun f hf => ?_⟩
  · exact performAccess_withMaster m fun _ _ _ hread => by simp [hop] at hread
  · obtain ⟨hr, r, htarget, -⟩ := performAccess_next ht
    refine ⟨s.busRead r, ?_, performAccess_of_read hr htarget hop⟩
    rw [performAccess_of_read hr htarget hop] at ht
    exact (Host.Outcome.next.inj ht).symm
  · rw [← hf]
    refine performAccess_withMaster m fun r hr htarget hread => ?_
    rw [performAccess_of_read hr htarget hread] at hf
    cases hf

end Sys2Proof.Proofs

/-! SUPPORT. The rules of the reset input (70_reset_and_hazards.md R230), and which commands lack the state that they need
when a context that they name holds no descriptor (R201, R232). -/

namespace Sys2Proof.Machine

/-- Asserting reset is SRST's device reset with the input's level held (R230). -/
theorem performEvent_assertReset (s : State) :
    performEvent .assertReset s = .next { s.deviceReset with resetAsserted := true } := rfl

/-- While reset is asserted an access gets the fault of R230, whatever it is. -/
theorem performAccess_of_resetAsserted {s : State} (hr : s.resetAsserted = true) (a : Access) :
    performAccess a s = .fault .accessDuringReset := by
  simp [performAccess, hr]

@[simp] theorem Context.phase_unconf : Context.unconf.phase = .unconf := rfl

/-- Of the commands that name a context, CONFIG and COMPAT alone need no descriptor there; COMBINE needs one in its
source as well. -/
theorem lacks_of_unconf {i : Instr} {s : State} {c : CtxIdx} (hc : c ∈ Claims.contextsOf i) (hctx : s.ctx c = .unconf)
    (hconfig : ∀ d width ri ro, i ≠ .config d width ri ro) (hcompat : ∀ d src, i ≠ .compat d src) :
    i.lacks s = true := by
  cases i with
  | nop | srst => cases hc
  | config => exact absurd rfl (hconfig _ _ _ _)
  | compat => exact absurd rfl (hcompat _ _)
  | start d | resume d | tblrd d | shift d | combf d | updb d | updd d | finish d | combv d | query d =>
    obtain rfl : c = d := List.mem_singleton.mp hc
    simp [Instr.lacks, hctx]
  | combine d src =>
    obtain rfl | rfl : c = d ∨ c = src := List.mem_pair.mp hc
    · simp [Instr.lacks, hctx]
    · simp [Instr.lacks, hctx]

end Sys2Proof.Machine

/-! SUPPORT. The obligations about reset and the contexts that it leaves without a descriptor (70_reset_and_hazards.md). -/

namespace Sys2Proof.Proofs

open Sys2Proof.Machine

/-- Settles O19: such a command lacks the state that R201's table asks for. -/
theorem unconfiguredContextsSupportNothing : Obligations.UnconfiguredContextsSupportNothing :=
  fun _ _ _ hc hctx hconfig hcompat => exec_of_lacks (lacks_of_unconf hc hctx hconfig hcompat)

/-- Settles O29; the input does the device reset of SRST, and the level it holds shows neither in STATUS nor in ID. -/
theorem resetInputResetsTheDevice : Obligations.ResetInputResetsTheDevice := by
  refine ⟨performEvent_assertReset, fun s t ht => ?_, fun s t u ht hu => ?_, fun s t a hr ht => ?_⟩
  · cases ht
    exact ⟨State.statusWord_deviceReset s, rfl⟩
  · cases ht
    cases hu
    rfl
  · rw [performAccess_of_resetAsserted hr a] at ht
    cases ht

end Sys2Proof.Proofs
